-- ==== Sys2Proof/Word.lean ====
section
/-! DEFINITION. The two word types of the CORE (spec/00_scope.md R8: u8 and u16, all values unsigned). -/

namespace Sys2Proof

/-- `u8`: a register, a memory byte, an immediate byte, a port number (R8). -/
abbrev Byte := BitVec 8

/-- `u16`: a register pair, `SP`, `pc`, an immediate word (R8). -/
abbrev Word := BitVec 16

end Sys2Proof
end

