-- ==== Sys2Proof/Syntax.lean ====
section
/-! DEFINITION. The instructions: one constructor of Instr per row of spec/opcode_table.json. -/

namespace Sys2Proof

/-- The seven data registers (spec/10_state.md R21). -/
inductive Reg where
  | a | b | c | d | e | h | l
deriving DecidableEq, Repr

/-- What a 3-bit register selector names: a register, or M, the byte at address HL (10_state.md R22). -/
inductive Operand where
  | reg (r : Reg)
  | mem
deriving DecidableEq, Repr

/-- The register pairs BC, DE and HL (10_state.md R23). -/
inductive Pair where
  | bc | de | hl
deriving DecidableEq, Repr

/-- What a 2-bit pair selector names in LXI, INX, DCX, LDAX and STAX (10_state.md R25). LDAX and STAX accept only
`bc` and `de`: see WellFormed. -/
inductive PairSel where
  | bc | de | hl | sp
deriving DecidableEq, Repr

/-- The eight conditions (10_state.md R35). -/
inductive Cond where
  | nz | z | nc | c | po | pe | p | m
deriving DecidableEq, Repr

/-- One constructor per row of spec/opcode_table.json, in the table's order. -/
inductive Instr where
  | nop
  | jmp (target : Word)
  | call (target : Word)
  | ret
  | jnz (target : Word)
  | jz (target : Word)
  | jnc (target : Word)
  | jc (target : Word)
  | jpo (target : Word)
  | jpe (target : Word)
  | jp (target : Word)
  | jm (target : Word)
  | out (port : Byte)
  | inp (port : Byte)
  | sphl
  | lda (addr : Word)
  | sta (addr : Word)
  | lhld (addr : Word)
  | shld (addr : Word)
  | hlt
  | movRR (dst src : Reg)
  | movRM (dst : Reg)
  | movMR (src : Reg)
  | mviR (dst : Reg) (imm : Byte)
  | mviM (imm : Byte)
  | dcrR (r : Reg)
  | dcrM
  | inrR (r : Reg)
  | inrM
  | cmpR (r : Reg)
  | cmpM
  | cpi (imm : Byte)
  | lxi (rp : PairSel) (imm : Word)
  | ldax (rp : PairSel)
  | stax (rp : PairSel)
  | dcx (rp : PairSel)
  | inx (rp : PairSel)
  | pushRp (rp : Pair)
  | pushPsw
  | popRp (rp : Pair)
  | popPsw
  | unimplemented (op : Byte)
deriving DecidableEq, Repr

/-- The length in bytes, which the opcode byte alone fixes (spec/30_encoding.md R89). An opcode that matches no pattern
has no operand bytes (60_exceptions.md R182). -/
def Instr.length : Instr → Nat
  | .nop | .ret | .sphl | .hlt => 1
  | .movRR _ _ | .movRM _ | .movMR _ => 1
  | .dcrR _ | .dcrM | .inrR _ | .inrM | .cmpR _ | .cmpM => 1
  | .ldax _ | .stax _ | .dcx _ | .inx _ => 1
  | .pushRp _ | .pushPsw | .popRp _ | .popPsw => 1
  | .unimplemented _ => 1
  | .mviR _ _ | .mviM _ | .cpi _ | .inp _ | .out _ => 2
  | .jmp _ | .call _ | .jnz _ | .jz _ | .jnc _ | .jc _ | .jpo _ | .jpe _ | .jp _ | .jm _ => 3
  | .lda _ | .sta _ | .lhld _ | .shld _ | .lxi _ _ => 3

end Sys2Proof
end

