-- ==== Sys2Proof/Machine/State.lean ====
section
/-! DEFINITION. The state of the CORE as plain data (spec/10_state.md R20), the reasons a step stops, and the state after
reset. -/

namespace Sys2Proof.Machine

/-- The direction of a missing port handler (spec/60_exceptions.md R181). -/
inductive Direction where
  | inward
  | outward
deriving DecidableEq, Repr

/-- The four errors that are not a halt (60_exceptions.md R181), each with the information it records. -/
inductive Error where
  | unimplementedOpcode (op : Byte)
  | invalidRegisterPairSelector (value : BitVec 2) (context : String)
  | outOfBounds (address : Int)
  | missingPortHandler (direction : Direction)
deriving DecidableEq, Repr

/-- The run status (10_state.md R37). -/
inductive Status where
  | running
  | halted
  | faulted (e : Error)
deriving DecidableEq, Repr

/-- How many bytes a step reads at pc: the parameter `P_FETCH_WINDOW` (00_scope.md R7, 30_encoding.md R89). -/
inductive FetchWindow where
  | exact
  | three
deriving DecidableEq, Repr

/-- One transaction at the port interface: the port and the byte that crossed it (44_port_io.md R170, R171). -/
inductive PortEvent where
  | read (port value : Byte)
  | write (port value : Byte)
deriving DecidableEq, Repr

/-- Memory contents: the bytes that differ from what an unlisted address reads as, by rising address. -/
abbrev Memory := List Host.Cell

/-- The machine's state: the record of 10_state.md R20, the run's parameters (00_scope.md R7; notes/assumptions/3.md) and
the model's own log of port transactions (notes/assumptions/6.md). -/
structure State where
  /-- The accumulator. -/
  a : Byte
  b : Byte
  c : Byte
  d : Byte
  e : Byte
  h : Byte
  l : Byte
  /-- The packed flags byte: S 7, Z 6, AC 4, P 2, C 0 (10_state.md R26). -/
  f : Byte
  sp : Word
  pc : Word
  mem : Memory
  status : Status
  /-- `L`, the memory size in bytes. No instruction changes it. -/
  memLen : Nat
  /-- `P_FETCH_WINDOW`. No instruction changes it. -/
  window : FetchWindow
  /-- Whether the host registered an input hook. No instruction changes it. -/
  inHook : Bool
  /-- Whether the host registered an output hook. No instruction changes it. -/
  outHook : Bool
  /-- The port transactions so far, newest first: the model's own field. -/
  ports : List PortEvent
deriving DecidableEq, Repr

/-- Why a step answers no next state. Both are raised by `step` alone, from a state whose status is not Running: such a
step has no effect and reports the outcome again (10_state.md R37, 60_exceptions.md R191). Safe: the spec says so. -/
inductive Fault where
  /-- The run ended with an error, reported again by every later step. Raised by `step`. Safe. -/
  | faulted (e : Error)
  /-- The run ended with HLT, reported again by every later step. Raised by `step`. Safe. -/
  | halted
deriving DecidableEq, Repr

/-- Why an instruction has no meaning in the model. -/
inductive Refusal where
  /-- An instruction whose arm of `exec` gives it no meaning yet. No arm raises it: every instruction has its meaning. Safe. -/
  | notModelled (mnemonic : String)
deriving DecidableEq, Repr

/-- The state after construction (10_state.md R41): pc, SP, the fixed flag bits and status as the spec gives them. It is
the raw construction of 65536 zero bytes (DESIGN CHOICE, notes/assumptions/1.md), with INIT_REGS all zero (DESIGN CHOICE,
notes/assumptions/2.md), the window `exact` (DESIGN CHOICE, notes/assumptions/4.md) and both hooks registered (DESIGN
CHOICE, notes/assumptions/5.md). -/
def State.reset : State where
  a := 0
  b := 0
  c := 0
  d := 0
  e := 0
  h := 0
  l := 0
  f := 0x02
  sp := 0
  pc := 0
  mem := []
  status := .running
  memLen := 65536
  window := .exact
  inHook := true
  outHook := true
  ports := []

end Sys2Proof.Machine
end

