-- ==== Sys2Proof/Config.lean ====
section
/-! DEFINITION. What is fixed for the machine, and the free values: what the host's port hooks answer. -/

namespace Sys2Proof

/-- The largest memory the model admits (spec/20_memory.md R51, decision D3). -/
def Config.maxMemLen : Nat := 65536

/-- What an address of memory that is not listed reads as (DESIGN CHOICE, notes/assumptions/11.md). Construction gives
every byte below `L` a value (spec/10_state.md R41), so this is a way of writing memory down and not a value of the spec. -/
def Config.unlistedByte : Byte := 0

/-- What a hook changes: any of A to L, F and the contents of memory, and nothing else (spec/44_port_io.md R172, R173,
decision D13). `writes` are the bytes it stores, in order. -/
structure HookEffect where
  a : Byte
  b : Byte
  c : Byte
  d : Byte
  e : Byte
  h : Byte
  l : Byte
  f : Byte
  writes : List Host.Cell
deriving DecidableEq, Repr, Inhabited

/-- What an input hook gives back: its changes and the byte read (44_port_io.md R172). -/
structure InAnswer where
  effect : HookEffect
  value : Byte
deriving DecidableEq, Repr, Inhabited

/-- FREE VALUE: the input hook's answer, from the state before the IN and the port number. It has no body, so a theorem
holds for every answer the hook relation of 44_port_io.md R172 allows. The state holds the log of earlier port
transactions, so no two calls of one run are given the same arguments (notes/assumptions/8.md). -/
opaque Config.inHook : Machine.State → Byte → InAnswer

/-- FREE VALUE: the output hook's changes, from the state before the OUT, the port number and the byte
(44_port_io.md R173; notes/assumptions/8.md). -/
opaque Config.outHook : Machine.State → Byte → Byte → HookEffect

end Sys2Proof
end

