-- ==== Sys2Proof/Machine/Bits.lean ====
section
/-! DEFINITION. The bit-field and byte-order helpers of spec/00_scope.md R10 and the fields of the opcode byte (spec/30_encoding.md R81). -/

namespace Sys2Proof

/-- `lo8(w) = w mod 2^8` (R10). -/
def lo8 (w : Word) : Byte := w.extractLsb' 0 8

/-- `hi8(w) = (w div 2^8) mod 2^8` (R10). -/
def hi8 (w : Word) : Byte := w.extractLsb' 8 8

/-- `pair_of(hi, lo) = {hi, lo}` (R10). -/
def pairOf (hi lo : Byte) : Word := hi ++ lo

/-- `split(w) = (hi8(w), lo8(w))` (R10). -/
def split (w : Word) : Byte × Byte := (hi8 w, lo8 w)

/-- `ddd`, bits 5:3 of the opcode byte; `ccc` stands at the same place (R81). -/
def dddField (op : Byte) : BitVec 3 := op.extractLsb' 3 3

/-- `sss`, bits 2:0 of the opcode byte (R81). -/
def sssField (op : Byte) : BitVec 3 := op.extractLsb' 0 3

/-- `pp`, bits 5:4 of the opcode byte (R81). -/
def ppField (op : Byte) : BitVec 2 := op.extractLsb' 4 2

end Sys2Proof
end

