-- ==== Sys2Proof/Machine/Ops.lean ====
section
/-! DEFINITION. The named operations over memory, registers, pc and the stack, and how an error ends a step. -/

namespace Sys2Proof.Machine

/-! Memory contents. -/

/-- The byte at an address. -/
def Memory.read : Memory → Nat → Byte
  | [], _ => Config.unlistedByte
  | (k, v) :: rest, addr => if k = addr then v else Memory.read rest addr

/-- Stores one byte and keeps the canonical form: addresses rise, and no listed byte equals the unlisted one. -/
def Memory.write : Memory → Nat → Byte → Memory
  | [], addr, v => if v = Config.unlistedByte then [] else [(addr, v)]
  | (k, old) :: rest, addr, v =>
    if addr < k then
      if v = Config.unlistedByte then (k, old) :: rest else (addr, v) :: (k, old) :: rest
    else if addr = k then
      if v = Config.unlistedByte then rest else (addr, v) :: rest
    else (k, old) :: Memory.write rest addr v

/-- The canonical form. -/
abbrev Memory.wf (m : Memory) : Prop :=
  m.Pairwise (fun x y => x.1 < y.1) ∧ ∀ cell ∈ m, cell.2 ≠ Config.unlistedByte

/-- Places bytes from an address upward (`load` of spec/20_memory.md R64). -/
def Memory.load (m : Memory) (base : Nat) : List Byte → Memory
  | [] => m
  | v :: rest => Memory.load (m.write base v) (base + 1) rest

/-! How a step ends. -/

/-- The outcome of executing an instruction. -/
abbrev Result := Host.Outcome State Fault Refusal

/-- `raise <Error>`: the step changes nothing but `status` (spec/60_exceptions.md R187, R188). There is no trap entry: the
spec saves nothing and goes nowhere. -/
def State.raise (s : State) (e : Error) : Result := .next { s with status := .faulted e }

/-- `raise Halted()`: the step changes nothing but `status` (60_exceptions.md R186, 41_control_flow.md R133). -/
def State.halt (s : State) : Result := .next { s with status := .halted }

/-- Ends a step: the state its rule gives, or the error raised from the state before the step, so that an error is
precise (60_exceptions.md R188). -/
def State.complete (s : State) : Except Error State → Result
  | .ok t => .next t
  | .error e => s.raise e

/-- `check(cond, Error)` (00_scope.md R9). -/
def check (cond : Prop) [Decidable cond] (e : Error) : Except Error Unit :=
  if cond then .ok () else .error e

/-- The numeric code of an error (60_exceptions.md R181). -/
def Error.code : Error → Nat
  | .unimplementedOpcode _ => 1
  | .invalidRegisterPairSelector _ _ => 2
  | .outOfBounds _ => 3
  | .missingPortHandler _ => 4

/-- The numeric code of a run's end: an error's, or 5 for Halted (60_exceptions.md R181). -/
def Fault.code : Fault → Nat
  | .faulted e => e.code
  | .halted => 5

/-! Registers. -/

/-- `x[r]` (00_scope.md R9). -/
def State.reg (s : State) : Reg → Byte
  | .a => s.a
  | .b => s.b
  | .c => s.c
  | .d => s.d
  | .e => s.e
  | .h => s.h
  | .l => s.l

/-- `x[r] <- v` (R9). -/
def State.setReg (s : State) (r : Reg) (v : Byte) : State :=
  match r with
  | .a => { s with a := v }
  | .b => { s with b := v }
  | .c => { s with c := v }
  | .d => { s with d := v }
  | .e => { s with e := v }
  | .h => { s with h := v }
  | .l => { s with l := v }

/-- The register that holds a pair's high byte (10_state.md R23). -/
def pairHigh : Pair → Reg
  | .bc => .b
  | .de => .d
  | .hl => .h

/-- The register that holds a pair's low byte (10_state.md R23). -/
def pairLow : Pair → Reg
  | .bc => .c
  | .de => .e
  | .hl => .l

/-- `pair(p)` (10_state.md R23). -/
def State.pair (s : State) (p : Pair) : Word := pairOf (s.reg (pairHigh p)) (s.reg (pairLow p))

/-- `pair(p) <- w` (10_state.md R24). -/
def State.setPair (s : State) (p : Pair) (w : Word) : State :=
  (s.setReg (pairHigh p) (hi8 w)).setReg (pairLow p) (lo8 w)

/-- `SP <- w`. -/
def State.setSp (s : State) (w : Word) : State := { s with sp := w }

/-- `pc <- target`. -/
def State.setPc (s : State) (w : Word) : State := { s with pc := w }

/-- Replaces the contents of memory. -/
def State.setMem (s : State) (m : Memory) : State := { s with mem := m }

/-! Memory accesses (spec/20_memory.md R52 to R57). Addresses are integers that never wrap. -/

/-- `check(0 <= addr < L, OutOfBounds(addr))`. -/
def State.inBounds (s : State) (addr : Nat) : Except Error Unit :=
  check (addr < s.memLen) (.outOfBounds addr)

/-- `MemRead(addr, 1)` (R52). -/
def State.memRead (s : State) (addr : Nat) : Except Error Byte := do
  s.inBounds addr
  .ok (s.mem.read addr)

/-- `MemWrite(addr, 1, v)` (R53). -/
def State.memWrite (s : State) (addr : Nat) (v : Byte) : Except Error State := do
  s.inBounds addr
  .ok (s.setMem (s.mem.write addr v))

/-- `MemRead(addr, 2)`: little-endian (R54). -/
def State.memReadWord (s : State) (addr : Nat) : Except Error Word := do
  s.inBounds addr
  s.inBounds (addr + 1)
  .ok (pairOf (s.mem.read (addr + 1)) (s.mem.read addr))

/-- The contents after a little-endian word is stored (R55). -/
def Memory.writeWord (m : Memory) (addr : Nat) (w : Word) : Memory :=
  (m.write addr (lo8 w)).write (addr + 1) (hi8 w)

/-- `MemWrite(addr, 2, w)`: both bounds are checked before either byte is written (R55). -/
def State.memWriteWord (s : State) (addr : Nat) (w : Word) : Except Error State := do
  s.inBounds addr
  s.inBounds (addr + 1)
  .ok (s.setMem (s.mem.writeWord addr w))

/-! The program counter and the stack. -/

/-- `pc + len`, which must not pass 0xFFFF (10_state.md R34). -/
def State.nextPc (s : State) (len : Nat) : Except Error Word := do
  check (s.pc.toNat + len ≤ 0xFFFF) (.outOfBounds (s.pc.toNat + len : Nat))
  .ok (BitVec.ofNat 16 (s.pc.toNat + len))

/-- A sequential instruction: the advance of pc is checked first, then `body` runs, then pc advances. -/
def State.sequential (s : State) (len : Nat) (body : Except Error State) : Result :=
  s.complete do
    let pc' ← s.nextPc len
    let t ← body
    .ok (t.setPc pc')

/-- `push(w)` (40_stack.md R110): the stack grows upward. -/
def State.push (s : State) (w : Word) : Except Error State := do
  s.inBounds s.sp.toNat
  s.inBounds (s.sp.toNat + 1)
  check (s.sp.toNat + 2 ≤ 0xFFFF) (.outOfBounds (s.sp.toNat + 2 : Nat))
  let t ← s.memWriteWord s.sp.toNat w
  .ok (t.setSp (BitVec.ofNat 16 (s.sp.toNat + 2)))

/-- `pop()` (40_stack.md R111). -/
def State.pop (s : State) : Except Error (Word × State) := do
  check (2 ≤ s.sp.toNat) (.outOfBounds ((s.sp.toNat : Int) - 2))
  let w ← s.memReadWord (s.sp.toNat - 2)
  .ok (w, s.setSp (BitVec.ofNat 16 (s.sp.toNat - 2)))

end Sys2Proof.Machine
end

