-- ==== Sys2Proof/Machine/Flags.lean ====
section
/-! DEFINITION. The flags byte: its bits, the fixed-bit policy, the flag update and the conditions
(spec/10_state.md R26 to R30, R35). -/

namespace Sys2Proof.Machine

/-! The flag bits (R26). -/

def flagS (f : Byte) : Bool := f.getLsbD 7
def flagZ (f : Byte) : Bool := f.getLsbD 6
def flagAC (f : Byte) : Bool := f.getLsbD 4
def flagP (f : Byte) : Bool := f.getLsbD 2
def flagC (f : Byte) : Bool := f.getLsbD 0

/-- `fix(f) = (f OR 0x02) AND 0xD7`: bit 1 set, bits 3 and 5 clear (00_scope.md R10, R27). -/
def fix (f : Byte) : Byte := (f ||| 0x02) &&& 0xD7

/-- `F <- v`: the fixed-bit policy is applied at every write (R27). -/
def State.setFlags (s : State) (v : Byte) : State := { s with f := fix v }

/-- The whole flags byte: the fixed-bit policy is applied at every read too (R27). -/
def State.flags (s : State) : Byte := fix s.f

/-- The number of 1 bits of a byte (00_scope.md R10). -/
def popcount (v : Byte) : Nat :=
  (List.range 8).countP (fun i => v.getLsbD i)

/-- True when the number of 1 bits is even (R29). -/
def evenParity (v : Byte) : Bool := popcount v % 2 == 0

/-- Which flags an instruction asks to have recomputed (R28). -/
structure FlagSet where
  s : Bool
  z : Bool
  ac : Bool
  p : Bool
  c : Bool
deriving DecidableEq, Repr

/-- INR and DCR: `{S, Z, P, AC}` (42_inc_dec_compare.md R140). -/
def szpa : FlagSet := ⟨true, true, true, true, false⟩

/-- CMP and CPI: `{S, Z, P, C, AC}` (42_inc_dec_compare.md R144). -/
def szpca : FlagSet := ⟨true, true, true, true, true⟩

/-- One bit of a byte replaced. -/
def putBit (f : Byte) (i : Nat) (v : Bool) : Byte :=
  if v then f ||| ((1 : Byte) <<< i) else f &&& ~~~((1 : Byte) <<< i)

/-- One bit replaced when it is asked for. -/
def putBitIf (want : Bool) (f : Byte) (i : Nat) (v : Bool) : Byte :=
  if want then putBit f i v else f

/-- `update_flags(result, carry_out, which)` (R28). A request for AC changes nothing: no instruction computes it (R30). -/
def updateFlags (f result : Byte) (carryOut : Bool) (which : FlagSet) : Byte :=
  let f := putBitIf which.s f 7 (result.getLsbD 7)
  let f := putBitIf which.z f 6 (result == 0)
  let f := putBitIf which.p f 2 (evenParity result)
  let f := putBitIf which.c f 0 carryOut
  fix f

/-- The flag update of a state. -/
def State.updateFlags (s : State) (result : Byte) (carryOut : Bool) (which : FlagSet) : State :=
  s.setFlags (Machine.updateFlags s.f result carryOut which)

/-- `cond(ccc)` (R35). No condition reads AC. -/
def condHolds (f : Byte) : Cond → Bool
  | .nz => !flagZ f
  | .z => flagZ f
  | .nc => !flagC f
  | .c => flagC f
  | .po => !flagP f
  | .pe => flagP f
  | .p => !flagS f
  | .m => flagS f

end Sys2Proof.Machine
end

