-- ==== Sys2Proof/Machine/Operands.lean ====
section
/-! DEFINITION. The operand forms: register or M, pair selectors, and the PSW (spec/10_state.md R22 to R25, R31, R32). -/

namespace Sys2Proof.Machine

/-- `pair(HL)` as an address: where M lies (R22). -/
def State.hlAddr (s : State) : Nat := (s.pair .hl).toNat

/-- `read_r(r)`: a register, or the byte at HL (R22). -/
def State.readOperand (s : State) : Operand → Except Error Byte
  | .reg r => .ok (s.reg r)
  | .mem => s.memRead s.hlAddr

/-- Writing operand `r` (R22). -/
def State.writeOperand (s : State) (o : Operand) (v : Byte) : Except Error State :=
  match o with
  | .reg r => .ok (s.setReg r v)
  | .mem => s.memWrite s.hlAddr v

/-- The word a pair selector names in LXI, INX and DCX (R25). -/
def State.readSel (s : State) : PairSel → Word
  | .bc => s.pair .bc
  | .de => s.pair .de
  | .hl => s.pair .hl
  | .sp => s.sp

/-- Writing what a pair selector names (R25). -/
def State.writeSel (s : State) (p : PairSel) (w : Word) : State :=
  match p with
  | .bc => s.setPair .bc w
  | .de => s.setPair .de w
  | .hl => s.setPair .hl w
  | .sp => s.setSp w

/-- The address pair of LDAX and STAX; selectors 2 and 3 raise InvalidRegisterPairSelector (R25,
60_exceptions.md R183). -/
def addressPair (p : PairSel) (context : String) : Except Error Pair :=
  match p with
  | .bc => .ok .bc
  | .de => .ok .de
  | .hl => .error (.invalidRegisterPairSelector 2 context)
  | .sp => .error (.invalidRegisterPairSelector 3 context)

/-- `PSW = {fix(F), A}` (R31). -/
def State.psw (s : State) : Word := pairOf s.flags s.a

/-- `PSW <- w`: `A <- lo8(w); F <- fix(hi8(w))` (R32). -/
def State.setPsw (s : State) (w : Word) : State := (s.setReg .a (lo8 w)).setFlags (hi8 w)

end Sys2Proof.Machine
end

