-- ==== Sys2Proof/Machine/Control.lean ====
section
/-! DEFINITION. Control flow, HLT and the unimplemented opcodes (spec/41_control_flow.md R120 to R135,
60_exceptions.md R182). -/

namespace Sys2Proof.Machine

/-- NOP (R120). -/
def execNop (s : State) : Result := s.sequential 1 (.ok s)

/-- JMP (R121): the target is not checked (R134). -/
def execJmp (target : Word) (s : State) : Result := .next (s.setPc target)

/-- The conditional jumps' shared rule (R122). -/
def State.jumpIf (s : State) (cond : Cond) (target : Word) : Result :=
  if condHolds s.f cond then .next (s.setPc target) else s.sequential 3 (.ok s)

/-- JNZ (R123). -/
def execJnz (target : Word) (s : State) : Result := s.jumpIf .nz target

/-- JZ (R124). -/
def execJz (target : Word) (s : State) : Result := s.jumpIf .z target

/-- JNC (R125). -/
def execJnc (target : Word) (s : State) : Result := s.jumpIf .nc target

/-- JC (R126). -/
def execJc (target : Word) (s : State) : Result := s.jumpIf .c target

/-- JPO (R127). -/
def execJpo (target : Word) (s : State) : Result := s.jumpIf .po target

/-- JPE (R128). -/
def execJpe (target : Word) (s : State) : Result := s.jumpIf .pe target

/-- JP (R129). -/
def execJp (target : Word) (s : State) : Result := s.jumpIf .p target

/-- JM (R130). -/
def execJm (target : Word) (s : State) : Result := s.jumpIf .m target

/-- CALL (R131): the return address is checked, then pushed. -/
def execCall (target : Word) (s : State) : Result :=
  s.complete do
    let ret ← s.nextPc 3
    let t ← s.push ret
    .ok (t.setPc target)

/-- RET (R132). -/
def execRet (s : State) : Result :=
  s.complete do
    let (w, t) ← s.pop
    .ok (t.setPc w)

/-- HLT (R133). -/
def execHlt (s : State) : Result := s.halt

/-- An opcode that matches no pattern (60_exceptions.md R182). -/
def execUnimplemented (op : Byte) (s : State) : Result := s.raise (.unimplementedOpcode op)

end Sys2Proof.Machine
end

