-- ==== Sys2Proof/Machine/DataMovement.lean ====
section
/-! DEFINITION. Data movement (spec/43_data_movement.md R150 to R164). None of these changes a flag. -/

namespace Sys2Proof.Machine

/-- MOV r,r' (R150). -/
def execMovRR (dst src : Reg) (s : State) : Result := s.sequential 1 (.ok (s.setReg dst (s.reg src)))

/-- MOV r,M (R151). -/
def execMovRM (dst : Reg) (s : State) : Result :=
  s.sequential 1 do
    let v ← s.readOperand .mem
    .ok (s.setReg dst v)

/-- MOV M,r (R152). -/
def execMovMR (src : Reg) (s : State) : Result := s.sequential 1 (s.writeOperand .mem (s.reg src))

/-- MVI r (R153). -/
def execMviR (dst : Reg) (imm : Byte) (s : State) : Result := s.sequential 2 (.ok (s.setReg dst imm))

/-- MVI M (R154). -/
def execMviM (imm : Byte) (s : State) : Result := s.sequential 2 (s.writeOperand .mem imm)

/-- LXI (R155). -/
def execLxi (p : PairSel) (imm : Word) (s : State) : Result := s.sequential 3 (.ok (s.writeSel p imm))

/-- LDA (R156). -/
def execLda (addr : Word) (s : State) : Result :=
  s.sequential 3 do
    let v ← s.memRead addr.toNat
    .ok (s.setReg .a v)

/-- STA (R157). -/
def execSta (addr : Word) (s : State) : Result := s.sequential 3 (s.memWrite addr.toNat s.a)

/-- LHLD (R158). -/
def execLhld (addr : Word) (s : State) : Result :=
  s.sequential 3 do
    let w ← s.memReadWord addr.toNat
    .ok (s.setPair .hl w)

/-- SHLD (R159). -/
def execShld (addr : Word) (s : State) : Result := s.sequential 3 (s.memWriteWord addr.toNat (s.pair .hl))

/-- LDAX (R160): the selector is checked before pc's advance. -/
def execLdax (p : PairSel) (s : State) : Result :=
  match addressPair p "LDAX" with
  | .error e => s.raise e
  | .ok q =>
    s.sequential 1 do
      let v ← s.memRead (s.pair q).toNat
      .ok (s.setReg .a v)

/-- STAX (R161): the selector is checked before pc's advance. -/
def execStax (p : PairSel) (s : State) : Result :=
  match addressPair p "STAX" with
  | .error e => s.raise e
  | .ok q => s.sequential 1 (s.memWrite (s.pair q).toNat s.a)

/-- INX (R162): wraps mod 2^16. -/
def execInx (p : PairSel) (s : State) : Result := s.sequential 1 (.ok (s.writeSel p (s.readSel p + 1)))

/-- DCX (R163): wraps mod 2^16. -/
def execDcx (p : PairSel) (s : State) : Result := s.sequential 1 (.ok (s.writeSel p (s.readSel p - 1)))

/-- SPHL (R164). -/
def execSphl (s : State) : Result := s.sequential 1 (.ok (s.setSp (s.pair .hl)))

end Sys2Proof.Machine
end

