-- ==== Sys2Proof/Machine/IncDecCompare.lean ====
section
/-! DEFINITION. Increment, decrement and compare (spec/42_inc_dec_compare.md R140 to R148). -/

namespace Sys2Proof.Machine

/-- The shared body of INR and DCR: the operand plus `delta` mod 2^8, written back; S, Z and P of the result
(R140 to R143). -/
def State.bump (s : State) (o : Operand) (delta : Byte) : Except Error State := do
  let v ← s.readOperand o
  let t ← s.writeOperand o (v + delta)
  .ok (t.updateFlags (v + delta) false szpa)

/-- The shared body of CMP and CPI: the flags of `A - v`, with the unsigned borrow in C; A is not written (R144). -/
def State.compare (s : State) (v : Byte) : State :=
  s.updateFlags (s.a - v) (decide (s.a.toNat < v.toNat)) szpca

/-- INR r (R140). -/
def execInrR (r : Reg) (s : State) : Result := s.sequential 1 (s.bump (.reg r) 1)

/-- INR M (R141). -/
def execInrM (s : State) : Result := s.sequential 1 (s.bump .mem 1)

/-- DCR r (R142): minus 1 is plus 0xFF mod 2^8. -/
def execDcrR (r : Reg) (s : State) : Result := s.sequential 1 (s.bump (.reg r) (-1))

/-- DCR M (R143). -/
def execDcrM (s : State) : Result := s.sequential 1 (s.bump .mem (-1))

/-- CMP r (R144). -/
def execCmpR (r : Reg) (s : State) : Result := s.sequential 1 (.ok (s.compare (s.reg r)))

/-- CMP M (R145). -/
def execCmpM (s : State) : Result :=
  s.sequential 1 do
    let v ← s.readOperand .mem
    .ok (s.compare v)

/-- CPI (R146). -/
def execCpi (imm : Byte) (s : State) : Result := s.sequential 2 (.ok (s.compare imm))

end Sys2Proof.Machine
end

