-- ==== Sys2Proof/Machine/PortIo.lean ====
section
/-! DEFINITION. Port I/O and what a hook may do (spec/44_port_io.md R170 to R177). -/

namespace Sys2Proof.Machine

/-- The bytes a hook stores, in order. A store outside `[0, L)` is no change of the contents of memory and is dropped
(DESIGN CHOICE, notes/assumptions/12.md). -/
def Memory.hookWrites (memLen : Nat) (m : Memory) : List Host.Cell → Memory
  | [] => m
  | (addr, v) :: rest => Memory.hookWrites memLen (if addr < memLen then m.write addr v else m) rest

/-- The state after a hook: only A to L, F and the contents of memory change, and F is fixed (R172). -/
def State.applyHook (s : State) (x : HookEffect) : State :=
  { s with
    a := x.a, b := x.b, c := x.c, d := x.d, e := x.e, h := x.h, l := x.l
    f := fix x.f
    mem := s.mem.hookWrites s.memLen x.writes }

/-- Records a port transaction. -/
def State.logPort (s : State) (ev : PortEvent) : State := { s with ports := ev :: s.ports }

/-- IN (R170): the hook runs, then A takes the returned byte. -/
def execInp (port : Byte) (s : State) : Result :=
  s.sequential 2 do
    check (s.inHook = true) (.missingPortHandler .inward)
    let ans := Config.inHook s port
    .ok (((s.applyHook ans.effect).setReg .a ans.value).logPort (.read port ans.value))

/-- OUT (R171): the hook is given the port and A. -/
def execOut (port : Byte) (s : State) : Result :=
  s.sequential 2 do
    check (s.outHook = true) (.missingPortHandler .outward)
    .ok ((s.applyHook (Config.outHook s port s.a)).logPort (.write port s.a))

end Sys2Proof.Machine
end

