-- ==== Sys2Proof/Machine/Stack.lean ====
section
/-! DEFINITION. The stack instructions (spec/40_stack.md R112 to R115). -/

namespace Sys2Proof.Machine

/-- PUSH rp (R112). -/
def execPushRp (p : Pair) (s : State) : Result := s.sequential 1 (s.push (s.pair p))

/-- PUSH PSW (R113): A at the lower address, the fixed flags at the higher. -/
def execPushPsw (s : State) : Result := s.sequential 1 (s.push s.psw)

/-- POP rp (R114). -/
def execPopRp (p : Pair) (s : State) : Result :=
  s.sequential 1 do
    let (w, t) ← s.pop
    .ok (t.setPair p w)

/-- POP PSW (R115). -/
def execPopPsw (s : State) : Result :=
  s.sequential 1 do
    let (w, t) ← s.pop
    .ok (t.setPsw w)

end Sys2Proof.Machine
end

