-- ==== Sys2Proof/Machine/Dispatch.lean ====
section
/-! DEFINITION. Dispatch: one arm per constructor of Instr, in the order of spec/opcode_table.json. -/

namespace Sys2Proof.Machine

def exec (i : Instr) (s : State) : Host.Outcome State Fault Refusal :=
  match i with
  | .nop => Sys2Proof.Machine.execNop s
  | .jmp t => Sys2Proof.Machine.execJmp t s
  | .call t => Sys2Proof.Machine.execCall t s
  | .ret => Sys2Proof.Machine.execRet s
  | .jnz t => Sys2Proof.Machine.execJnz t s
  | .jz t => Sys2Proof.Machine.execJz t s
  | .jnc t => Sys2Proof.Machine.execJnc t s
  | .jc t => Sys2Proof.Machine.execJc t s
  | .jpo t => Sys2Proof.Machine.execJpo t s
  | .jpe t => Sys2Proof.Machine.execJpe t s
  | .jp t => Sys2Proof.Machine.execJp t s
  | .jm t => Sys2Proof.Machine.execJm t s
  | .out p => Sys2Proof.Machine.execOut p s
  | .inp p => Sys2Proof.Machine.execInp p s
  | .sphl => Sys2Proof.Machine.execSphl s
  | .lda a => Sys2Proof.Machine.execLda a s
  | .sta a => Sys2Proof.Machine.execSta a s
  | .lhld a => Sys2Proof.Machine.execLhld a s
  | .shld a => Sys2Proof.Machine.execShld a s
  | .hlt => Sys2Proof.Machine.execHlt s
  | .movRR dst src => Sys2Proof.Machine.execMovRR dst src s
  | .movRM dst => Sys2Proof.Machine.execMovRM dst s
  | .movMR src => Sys2Proof.Machine.execMovMR src s
  | .mviR dst v => Sys2Proof.Machine.execMviR dst v s
  | .mviM v => Sys2Proof.Machine.execMviM v s
  | .dcrR r => Sys2Proof.Machine.execDcrR r s
  | .dcrM => Sys2Proof.Machine.execDcrM s
  | .inrR r => Sys2Proof.Machine.execInrR r s
  | .inrM => Sys2Proof.Machine.execInrM s
  | .cmpR r => Sys2Proof.Machine.execCmpR r s
  | .cmpM => Sys2Proof.Machine.execCmpM s
  | .cpi v => Sys2Proof.Machine.execCpi v s
  | .lxi p w => Sys2Proof.Machine.execLxi p w s
  | .ldax p => Sys2Proof.Machine.execLdax p s
  | .stax p => Sys2Proof.Machine.execStax p s
  | .dcx p => Sys2Proof.Machine.execDcx p s
  | .inx p => Sys2Proof.Machine.execInx p s
  | .pushRp p => Sys2Proof.Machine.execPushRp p s
  | .pushPsw => Sys2Proof.Machine.execPushPsw s
  | .popRp p => Sys2Proof.Machine.execPopRp p s
  | .popPsw => Sys2Proof.Machine.execPopPsw s
  | .unimplemented op => Sys2Proof.Machine.execUnimplemented op s

end Sys2Proof.Machine
end

