-- ==== Sys2Proof/WellFormed.lean ====
section
/-! DEFINITION. Which terms of Instr stand for an instruction of the opcode map: LDAX and STAX take only BC and DE
(spec/10_state.md R25), and an unimplemented opcode is one of the 116 of spec/30_encoding.md R86. -/

namespace Sys2Proof

/-- The pair selectors LDAX and STAX accept: 0 (BC) and 1 (DE) (10_state.md R25; 90_conflicts.md C2). -/
def PairSel.addresses : PairSel → Bool
  | .bc | .de => true
  | .hl | .sp => false

/-- R86, opcodes 0x07 to 0x3F. -/
def unimplementedLow : List Byte :=
  [0x07, 0x08, 0x09, 0x0F, 0x10, 0x17, 0x18, 0x19, 0x1F, 0x20, 0x27, 0x28, 0x29, 0x2F, 0x30, 0x37, 0x38, 0x39, 0x3F]

/-- R86, opcodes 0x80 to 0x9F. -/
def unimplemented89 : List Byte :=
  [0x80, 0x81, 0x82, 0x83, 0x84, 0x85, 0x86, 0x87, 0x88, 0x89, 0x8A, 0x8B, 0x8C, 0x8D, 0x8E, 0x8F,
   0x90, 0x91, 0x92, 0x93, 0x94, 0x95, 0x96, 0x97, 0x98, 0x99, 0x9A, 0x9B, 0x9C, 0x9D, 0x9E, 0x9F]

/-- R86, opcodes 0xA0 to 0xB7. -/
def unimplementedAB : List Byte :=
  [0xA0, 0xA1, 0xA2, 0xA3, 0xA4, 0xA5, 0xA6, 0xA7, 0xA8, 0xA9, 0xAA, 0xAB, 0xAC, 0xAD, 0xAE, 0xAF,
   0xB0, 0xB1, 0xB2, 0xB3, 0xB4, 0xB5, 0xB6, 0xB7]

/-- R86, opcodes 0xC0 to 0xFF. -/
def unimplementedHigh : List Byte :=
  [0xC0, 0xC4, 0xC6, 0xC7, 0xC8, 0xCB, 0xCC, 0xCE, 0xCF, 0xD0, 0xD4, 0xD6, 0xD7, 0xD8, 0xD9, 0xDC, 0xDD, 0xDE, 0xDF,
   0xE0, 0xE3, 0xE4, 0xE6, 0xE7, 0xE8, 0xE9, 0xEB, 0xEC, 0xED, 0xEE, 0xEF, 0xF0, 0xF3, 0xF4, 0xF6, 0xF7, 0xF8, 0xFB,
   0xFC, 0xFD, 0xFF]

/-- The 116 unimplemented opcodes, as 30_encoding.md R86 lists them. -/
def unimplementedOpcodes : List Byte :=
  unimplementedLow ++ unimplemented89 ++ unimplementedAB ++ unimplementedHigh

/-- Well-formed instructions. Registers, pairs and immediates are right by their types. -/
def Instr.wf : Instr → Bool
  | .ldax rp | .stax rp => rp.addresses
  | .unimplemented op => unimplementedOpcodes.contains op
  | .nop | .ret | .sphl | .hlt => true
  | .jmp _ | .call _ | .jnz _ | .jz _ | .jnc _ | .jc _ | .jpo _ | .jpe _ | .jp _ | .jm _ => true
  | .out _ | .inp _ => true
  | .lda _ | .sta _ | .lhld _ | .shld _ => true
  | .movRR _ _ | .movRM _ | .movMR _ | .mviR _ _ | .mviM _ => true
  | .dcrR _ | .dcrM | .inrR _ | .inrM | .cmpR _ | .cmpM | .cpi _ => true
  | .lxi _ _ | .dcx _ | .inx _ => true
  | .pushRp _ | .pushPsw | .popRp _ | .popPsw => true

end Sys2Proof
end

