-- ==== Sys2Proof/Decode.lean ====
section
/-! DEFINITION. Decoding and encoding, from the ordered pattern list of spec/30_encoding.md R83. The patterns other than
0x00 and 0xC3 are the spec's decision D2 (UNVERIFIED: notes/assumptions/9.md). -/

namespace Sys2Proof

/-- The register selector (spec/10_state.md R22): 0=B, 1=C, 2=D, 3=E, 4=H, 5=L, 6=M, 7=A. -/
def operandOf (v : BitVec 3) : Operand :=
  match v.toNat with
  | 0 => .reg .b
  | 1 => .reg .c
  | 2 => .reg .d
  | 3 => .reg .e
  | 4 => .reg .h
  | 5 => .reg .l
  | 6 => .mem
  | _ => .reg .a

/-- The pair selector (10_state.md R25): 0=BC, 1=DE, 2=HL, 3=SP. -/
def pairSelOf (v : BitVec 2) : PairSel :=
  match v.toNat with
  | 0 => .bc
  | 1 => .de
  | 2 => .hl
  | _ => .sp

/-- The condition selector (10_state.md R35). -/
def condOf (v : BitVec 3) : Cond :=
  match v.toNat with
  | 0 => .nz
  | 1 => .z
  | 2 => .nc
  | 3 => .c
  | 4 => .po
  | 5 => .pe
  | 6 => .p
  | _ => .m

/-- What the opcode byte alone decides: the instruction, less the operand bytes its format still needs (30_encoding.md
R80). -/
inductive Head where
  | op (i : Instr)
  | opD8 (f : Byte → Instr)
  | opA16 (f : Word → Instr)

/-- The length the format fixes (R80, R89). -/
def Head.length : Head → Nat
  | .op _ => 1
  | .opD8 _ => 2
  | .opA16 _ => 3

/-- The whole instruction, from the bytes at pc+1 and pc+2: `imm8` is the first, `imm16` is `(byte3<<8)|byte2` (R82). -/
def Head.complete : Head → Byte → Byte → Instr
  | .op i, _, _ => i
  | .opD8 f, b2, _ => f b2
  | .opA16 f, b2, b3 => f (pairOf b3 b2)

/-- Jcc: the constructor the condition names (41_control_flow.md R123 to R130). -/
def jccOf : Cond → Word → Instr
  | .nz => .jnz
  | .z => .jz
  | .nc => .jnc
  | .c => .jc
  | .po => .jpo
  | .pe => .jpe
  | .p => .jp
  | .m => .jm

/-- MOV by its two selectors. The pair M,M is no MOV: its opcode 0x76 is HLT, which R83 tests first. -/
def movOf : Operand → Operand → Instr
  | .reg dst, .reg src => .movRR dst src
  | .reg dst, .mem => .movRM dst
  | .mem, .reg src => .movMR src
  | .mem, .mem => .hlt

def mviOf : Operand → Byte → Instr
  | .reg dst => .mviR dst
  | .mem => .mviM

def dcrOf : Operand → Instr
  | .reg r => .dcrR r
  | .mem => .dcrM

def inrOf : Operand → Instr
  | .reg r => .inrR r
  | .mem => .inrM

def cmpOf : Operand → Instr
  | .reg r => .cmpR r
  | .mem => .cmpM

/-- PUSH: selector 3 is PSW (10_state.md R25). -/
def pushOf : PairSel → Instr
  | .bc => .pushRp .bc
  | .de => .pushRp .de
  | .hl => .pushRp .hl
  | .sp => .pushPsw

/-- POP: selector 3 is PSW (10_state.md R25). -/
def popOf : PairSel → Instr
  | .bc => .popRp .bc
  | .de => .popRp .de
  | .hl => .popRp .hl
  | .sp => .popPsw

/-- One line of R83: the opcode matches when `op & mask = pattern`. -/
structure Pattern where
  priority : Nat
  mask : Byte
  pattern : Byte
  build : Byte → Head

def Pattern.hits (r : Pattern) (op : Byte) : Bool := op &&& r.mask == r.pattern

/-- R83, priority 1. -/
def patterns1 : List Pattern :=
  [ ⟨1, 0xFF, 0x00, fun _ => .op .nop⟩,
    ⟨1, 0xFF, 0xC3, fun _ => .opA16 .jmp⟩,
    ⟨1, 0xFF, 0xCD, fun _ => .opA16 .call⟩,
    ⟨1, 0xFF, 0xC9, fun _ => .op .ret⟩,
    ⟨1, 0xC7, 0xC2, fun op => .opA16 (jccOf (condOf (dddField op)))⟩,
    ⟨1, 0xFF, 0xD3, fun _ => .opD8 .out⟩,
    ⟨1, 0xFF, 0xDB, fun _ => .opD8 .inp⟩,
    ⟨1, 0xFF, 0xF9, fun _ => .op .sphl⟩,
    ⟨1, 0xFF, 0x3A, fun _ => .opA16 .lda⟩,
    ⟨1, 0xFF, 0x32, fun _ => .opA16 .sta⟩,
    ⟨1, 0xFF, 0x2A, fun _ => .opA16 .lhld⟩,
    ⟨1, 0xFF, 0x22, fun _ => .opA16 .shld⟩ ]

/-- R83, priority 2. -/
def patterns2 : List Pattern :=
  [ ⟨2, 0xFF, 0x76, fun _ => .op .hlt⟩ ]

/-- R83, priority 3. -/
def patterns3 : List Pattern :=
  [ ⟨3, 0xC0, 0x40, fun op => .op (movOf (operandOf (dddField op)) (operandOf (sssField op)))⟩,
    ⟨3, 0xC7, 0x06, fun op => .opD8 (mviOf (operandOf (dddField op)))⟩,
    ⟨3, 0xC7, 0x05, fun op => .op (dcrOf (operandOf (dddField op)))⟩,
    ⟨3, 0xC7, 0x04, fun op => .op (inrOf (operandOf (dddField op)))⟩,
    ⟨3, 0xF8, 0xB8, fun op => .op (cmpOf (operandOf (sssField op)))⟩,
    ⟨3, 0xFF, 0xFE, fun _ => .opD8 .cpi⟩,
    ⟨3, 0xCF, 0x01, fun op => .opA16 (.lxi (pairSelOf (ppField op)))⟩,
    ⟨3, 0xCF, 0x0A, fun op => .op (.ldax (pairSelOf (ppField op)))⟩,
    ⟨3, 0xCF, 0x02, fun op => .op (.stax (pairSelOf (ppField op)))⟩,
    ⟨3, 0xCF, 0x0B, fun op => .op (.dcx (pairSelOf (ppField op)))⟩,
    ⟨3, 0xCF, 0x03, fun op => .op (.inx (pairSelOf (ppField op)))⟩,
    ⟨3, 0xCF, 0xC5, fun op => .op (pushOf (pairSelOf (ppField op)))⟩,
    ⟨3, 0xCF, 0xC1, fun op => .op (popOf (pairSelOf (ppField op)))⟩ ]

/-- The ordered list of bit patterns (R83). -/
def patterns : List Pattern := patterns1 ++ patterns2 ++ patterns3

/-- Decoding the opcode byte: the first pattern that matches, else the fallback (R83, R86). -/
def decodeHead (op : Byte) : Head :=
  match patterns.find? (fun r => r.hits op) with
  | some r => r.build op
  | none => .op (.unimplemented op)

/-- Why a byte list is no instruction. Every opcode byte decodes, so only a byte can be missing. -/
inductive DecodeError where
  | noOpcode
  | missingOperand (op : Byte) (present needed : Nat)
deriving DecidableEq, Repr

/-- Reads one instruction off the front of a byte list and gives the rest. -/
def decode : List Byte → Except DecodeError (Instr × List Byte)
  | [] => .error .noOpcode
  | op :: rest =>
    match decodeHead op, rest with
    | .op i, rest => .ok (i, rest)
    | .opD8 f, b2 :: rest => .ok (f b2, rest)
    | .opD8 _, [] => .error (.missingOperand op 1 2)
    | .opA16 f, b2 :: b3 :: rest => .ok (f (pairOf b3 b2), rest)
    | .opA16 _, [_] => .error (.missingOperand op 2 3)
    | .opA16 _, [] => .error (.missingOperand op 1 3)

/-! The encoder, from the patterns of 30_encoding.md R85. -/

/-- The selector of a register operand (10_state.md R22). -/
def regSel : Reg → Byte
  | .b => 0
  | .c => 1
  | .d => 2
  | .e => 3
  | .h => 4
  | .l => 5
  | .a => 7

/-- The selector of M (10_state.md R22). -/
def memSel : Byte := 6

def pairSel : Pair → Byte
  | .bc => 0
  | .de => 1
  | .hl => 2

def pairSelBits : PairSel → Byte
  | .bc => 0
  | .de => 1
  | .hl => 2
  | .sp => 3

def condSel : Cond → Byte
  | .nz => 0
  | .z => 1
  | .nc => 2
  | .c => 3
  | .po => 4
  | .pe => 5
  | .p => 6
  | .m => 7

/-- `ddd` or `ccc` placed at bits 5:3. -/
def atDdd (sel : Byte) : Byte := sel <<< 3

/-- `pp` placed at bits 5:4. -/
def atPp (sel : Byte) : Byte := sel <<< 4

/-- An address or word after the opcode, low byte first (R80, R82). -/
def a16 (op : Byte) (w : Word) : List Byte := [op, lo8 w, hi8 w]

/-- A conditional jump, `11ccc010`. -/
def jccBytes (cond : Cond) (w : Word) : List Byte := a16 (0xC2 ||| atDdd (condSel cond)) w

/-- The bytes of an instruction (R85). -/
def encode : Instr → List Byte
  | .nop => [0x00]
  | .jmp t => a16 0xC3 t
  | .call t => a16 0xCD t
  | .ret => [0xC9]
  | .jnz t => jccBytes .nz t
  | .jz t => jccBytes .z t
  | .jnc t => jccBytes .nc t
  | .jc t => jccBytes .c t
  | .jpo t => jccBytes .po t
  | .jpe t => jccBytes .pe t
  | .jp t => jccBytes .p t
  | .jm t => jccBytes .m t
  | .out port => [0xD3, port]
  | .inp port => [0xDB, port]
  | .sphl => [0xF9]
  | .lda addr => a16 0x3A addr
  | .sta addr => a16 0x32 addr
  | .lhld addr => a16 0x2A addr
  | .shld addr => a16 0x22 addr
  | .hlt => [0x76]
  | .movRR dst src => [0x40 ||| atDdd (regSel dst) ||| regSel src]
  | .movRM dst => [0x40 ||| atDdd (regSel dst) ||| memSel]
  | .movMR src => [0x40 ||| atDdd memSel ||| regSel src]
  | .mviR dst imm => [0x06 ||| atDdd (regSel dst), imm]
  | .mviM imm => [0x06 ||| atDdd memSel, imm]
  | .dcrR r => [0x05 ||| atDdd (regSel r)]
  | .dcrM => [0x05 ||| atDdd memSel]
  | .inrR r => [0x04 ||| atDdd (regSel r)]
  | .inrM => [0x04 ||| atDdd memSel]
  | .cmpR r => [0xB8 ||| regSel r]
  | .cmpM => [0xB8 ||| memSel]
  | .cpi imm => [0xFE, imm]
  | .lxi rp w => a16 (0x01 ||| atPp (pairSelBits rp)) w
  | .ldax rp => [0x0A ||| atPp (pairSelBits rp)]
  | .stax rp => [0x02 ||| atPp (pairSelBits rp)]
  | .dcx rp => [0x0B ||| atPp (pairSelBits rp)]
  | .inx rp => [0x03 ||| atPp (pairSelBits rp)]
  | .pushRp rp => [0xC5 ||| atPp (pairSel rp)]
  | .pushPsw => [0xF5]
  | .popRp rp => [0xC1 ||| atPp (pairSel rp)]
  | .popPsw => [0xF1]
  | .unimplemented op => [op]

/-- The three bytes an instruction of `nbits` bits with value `w` is stored as, first byte lowest; every bit from
`nbits` up is 0. Three bytes is the longest instruction (R80). -/
def tableBytes (nbits w : Nat) : List Byte :=
  let v := w % 2 ^ nbits
  [BitVec.ofNat 8 v, BitVec.ofNat 8 (v / 256), BitVec.ofNat 8 (v / 65536)]

/-- The host's question: what the decoder reads from an opcode-table word. -/
def decodeTableWord (nbits w : Nat) : Option Instr :=
  match decode (tableBytes nbits w) with
  | .ok (i, _) => some i
  | .error _ => none

end Sys2Proof
end

