-- ==== Sys2Proof/Machine/Fetch.lean ====
section
/-! DEFINITION. Fetching an instruction (spec/30_encoding.md R89, 60_exceptions.md R189). -/

namespace Sys2Proof.Machine

/-- `P_FETCH_WINDOW = exact`: the opcode byte, then only the operand bytes its format needs. -/
def State.fetchExact (s : State) : Except Error Instr := do
  let op ← s.memRead s.pc.toNat
  match decodeHead op with
  | .op i => .ok i
  | .opD8 f => do
    let b2 ← s.memRead (s.pc.toNat + 1)
    .ok (f b2)
  | .opA16 f => do
    let b2 ← s.memRead (s.pc.toNat + 1)
    let b3 ← s.memRead (s.pc.toNat + 2)
    .ok (f (pairOf b3 b2))

/-- `P_FETCH_WINDOW = three`: all three bytes, lowest address first, whatever the length. -/
def State.fetchThree (s : State) : Except Error Instr := do
  let op ← s.memRead s.pc.toNat
  let b2 ← s.memRead (s.pc.toNat + 1)
  let b3 ← s.memRead (s.pc.toNat + 2)
  .ok ((decodeHead op).complete b2 b3)

/-- Fetch and decode the instruction at pc. -/
def State.fetch (s : State) : Except Error Instr :=
  match s.window with
  | .exact => s.fetchExact
  | .three => s.fetchThree

end Sys2Proof.Machine
end

