-- ==== Sys2Proof/Machine/Step.lean ====
section
/-! DEFINITION. One step: fetch, decode, execute (spec/30_encoding.md R89, 60_exceptions.md R180), and the host's way to
place an instruction. -/

namespace Sys2Proof.Machine

/-- One step. From Running it fetches at pc and executes; a fetch error is raised like any other. From Halted or Faulted
it has no effect and reports the outcome again (10_state.md R37, 60_exceptions.md R191). -/
def step (s : State) : Host.Outcome State Fault Refusal :=
  match s.status with
  | .halted => .fault .halted
  | .faulted e => .fault (.faulted e)
  | .running =>
    match s.fetch with
    | .error e => s.raise e
    | .ok i => exec i s

/-- Stores bytes from an address upward, those below `memLen`. -/
def State.place (s : State) (addr : Nat) : List Byte → State
  | [] => s
  | v :: rest => State.place (if addr < s.memLen then s.setMem (s.mem.write addr v) else s) (addr + 1) rest

/-- The state with an instruction stored at pc, where the next step fetches. Memory is made long enough for it, up to the
largest the model admits, and the run is Running: this stands for the host's load of a program
(notes/assumptions/15.md). -/
def State.withFetchWord (s : State) (nbits w : Nat) : State :=
  State.place
    { s with memLen := max s.memLen (min (s.pc.toNat + 3) Config.maxMemLen), status := .running }
    s.pc.toNat (tableBytes nbits w)

end Sys2Proof.Machine
end

