-- ==== Sys2Proof/Machine/Construct.lean ====
section
/-! DEFINITION. Construction, the CORE's only reset (spec/70_reset_and_hazards.md R200 to R202, 10_state.md R41,
20_memory.md R64). -/

namespace Sys2Proof.Machine

/-- The launch argument `INIT_REGS` (00_scope.md R7, 10_state.md R42). -/
structure InitRegs where
  a : Byte
  b : Byte
  c : Byte
  d : Byte
  e : Byte
  h : Byte
  l : Byte
  f : Byte
deriving DecidableEq, Repr

/-- What a run is launched with beside its image (00_scope.md R7). The hooks are registered before execution begins and
fixed for the run (44_port_io.md R176). -/
structure Launch where
  init : InitRegs
  window : FetchWindow
  inHook : Bool
  outHook : Bool
deriving DecidableEq, Repr

/-- Construction of the image at base offset `base`: `[0, base)` is zero, the image follows, `L = B + n`, pc is the base
and SP is 0. It is refused when `B + n > 65536` (R201, decision D3), and for the one empty image at base 65536, whose entry
point no 16-bit pc holds (notes/assumptions/14.md). -/
def State.construct (image : List Byte) (base : Nat) (x : Launch) : Option State :=
  if base + image.length ≤ Config.maxMemLen ∧ base < 2 ^ 16 then
    some
      { a := x.init.a, b := x.init.b, c := x.init.c, d := x.init.d, e := x.init.e, h := x.init.h, l := x.init.l
        f := fix x.init.f
        sp := 0
        pc := BitVec.ofNat 16 base
        mem := Memory.load [] base image
        status := .running
        memLen := base + image.length
        window := x.window
        inHook := x.inHook
        outHook := x.outHook
        ports := [] }
  else none

/-- Raw construction: `load(bytes, 0)` (R200). -/
def State.constructRaw (bytes : List Byte) (x : Launch) : Option State := State.construct bytes 0 x

end Sys2Proof.Machine
end

