-- ==== Sys2Proof/Safety.lean ====
section
/-! DEFINITION. What counts as a good state and a safe outcome, and the terms the claims are stated in. -/

namespace Sys2Proof.Machine

/-- The invariant of the machine: memory keeps its canonical form and stays inside `[0, L)` (spec/20_memory.md R50), `L`
is at most 65536 (R51), and the stored flags byte is a fixed one (10_state.md R27). -/
abbrev State.Inv (s : State) : Prop :=
  s.mem.wf ∧ (∀ cell ∈ s.mem, cell.1 < s.memLen) ∧ s.memLen ≤ Config.maxMemLen ∧ s.f = fix s.f

/-- The byte at an address. -/
def State.byteAt (s : State) (addr : Nat) : Byte := s.mem.read addr

/-- The three bytes a fetch at pc could read. -/
def State.windowBytes (s : State) : List Byte :=
  [s.byteAt s.pc.toNat, s.byteAt (s.pc.toNat + 1), s.byteAt (s.pc.toNat + 2)]

/-- The state after a failing step: only `status` changed (60_exceptions.md R188). -/
def State.faultedWith (s : State) (e : Error) : State := { s with status := .faulted e }

/-- The state after HLT: only `status` changed (60_exceptions.md R186). -/
def State.haltedNow (s : State) : State := { s with status := .halted }

/-- The instruction raises OutOfBounds with an address, and changes nothing but `status`. -/
def TrapsAt (i : Instr) (s : State) (addr : Int) : Prop := exec i s = .next (s.faultedWith (.outOfBounds addr))

/-- An instruction of `len` bytes whose advance of pc would pass 0xFFFF traps with the address it would reach
(10_state.md R34). -/
def PastTop (len : Nat) (i : Instr) (s : State) : Prop :=
  0xFFFF < s.pc.toNat + len → TrapsAt i s (s.pc.toNat + len : Nat)

/-- A status a run may end with without an error. -/
def Status.isGood : Status → Bool
  | .running => true
  | .halted => true
  | .faulted _ => false

/-- A safe step: it answers a next state, and that state is not Faulted. -/
def SafeOutcome (r : Host.Outcome State Fault Refusal) : Prop :=
  ∃ t, r = .next t ∧ t.status.isGood = true

/-- The run's parameters are the same (00_scope.md R7). -/
def SameParams (s t : State) : Prop :=
  t.memLen = s.memLen ∧ t.window = s.window ∧ t.inHook = s.inHook ∧ t.outHook = s.outHook

/-- Every byte of memory reads as before. -/
def SameMem (s t : State) : Prop := ∀ addr, t.byteAt addr = s.byteAt addr

/-- Every byte of memory outside the `n` bytes from `lo` upward reads as before. -/
def SameMemBut (lo n : Nat) (s t : State) : Prop :=
  ∀ addr, addr < lo ∨ lo + n ≤ addr → t.byteAt addr = s.byteAt addr

/-- Every data register but the listed ones is unchanged. -/
def SameRegsBut (changed : List Reg) (s t : State) : Prop :=
  ∀ r, r ∉ changed → t.reg r = s.reg r

/-- The parts no data instruction changes: status, the parameters and the port log. -/
def SameControl (s t : State) : Prop :=
  t.status = s.status ∧ SameParams s t ∧ t.ports = s.ports

/-- A sequential instruction's own end: pc is past its `len` bytes, and control state is as before (10_state.md R34). -/
def Advanced (len : Nat) (s t : State) : Prop :=
  t.pc.toNat = s.pc.toNat + len ∧ SameControl s t

/-- The flags of an 8-bit result: S its bit 7, Z whether it is 0, P whether its count of 1 bits is even; AC as before
(10_state.md R28 to R30). -/
def FlagsOf (result : Byte) (s t : State) : Prop :=
  flagS t.f = result.getLsbD 7 ∧ flagZ t.f = (result == 0) ∧ flagP t.f = (popcount result % 2 == 0) ∧
    flagAC t.f = flagAC s.f

/-! What each instruction writes (10_state.md R39, R40). A hook may write A to L, F and memory, so IN and OUT may. -/

/-- The data registers a pair selector names. -/
def PairSel.regs : PairSel → List Reg
  | .bc => [.b, .c]
  | .de => [.d, .e]
  | .hl => [.h, .l]
  | .sp => []

/-- The data registers an instruction may write (R39). -/
def destRegs : Instr → List Reg
  | .movRR dst _ | .movRM dst | .mviR dst _ | .inrR dst | .dcrR dst => [dst]
  | .lxi rp _ | .inx rp | .dcx rp => PairSel.regs rp
  | .popRp rp => [pairHigh rp, pairLow rp]
  | .lhld _ => [.h, .l]
  | .lda _ | .ldax _ | .popPsw => [.a]
  | .inp _ | .out _ => [.a, .b, .c, .d, .e, .h, .l]
  | .nop | .jmp _ | .call _ | .ret | .jnz _ | .jz _ | .jnc _ | .jc _ | .jpo _ | .jpe _ | .jp _ | .jm _ => []
  | .sphl | .sta _ | .shld _ | .hlt | .movMR _ | .mviM _ | .dcrM | .inrM | .cmpR _ | .cmpM | .cpi _ => []
  | .stax _ | .pushRp _ | .pushPsw | .unimplemented _ => []

/-- Whether an instruction may write SP (R39). -/
def writesSp : Instr → Bool
  | .lxi .sp _ | .inx .sp | .dcx .sp => true
  | .sphl | .pushRp _ | .pushPsw | .popRp _ | .popPsw | .call _ | .ret => true
  | .lxi .bc _ | .lxi .de _ | .lxi .hl _ | .inx .bc | .inx .de | .inx .hl | .dcx .bc | .dcx .de | .dcx .hl => false
  | .nop | .jmp _ | .jnz _ | .jz _ | .jnc _ | .jc _ | .jpo _ | .jpe _ | .jp _ | .jm _ | .out _ | .inp _ => false
  | .lda _ | .sta _ | .lhld _ | .shld _ | .hlt | .movRR _ _ | .movRM _ | .movMR _ | .mviR _ _ | .mviM _ => false
  | .dcrR _ | .dcrM | .inrR _ | .inrM | .cmpR _ | .cmpM | .cpi _ | .ldax _ | .stax _ | .unimplemented _ => false

/-- The bits of F an instruction may change (R40): S 7, Z 6, P 2, C 0; all of them for POP PSW and the hooks. -/
def flagBits : Instr → List Nat
  | .inrR _ | .inrM | .dcrR _ | .dcrM => [7, 6, 2]
  | .cmpR _ | .cmpM | .cpi _ => [7, 6, 2, 0]
  | .popPsw | .inp _ | .out _ => [7, 6, 5, 4, 3, 2, 1, 0]
  | .nop | .jmp _ | .call _ | .ret | .jnz _ | .jz _ | .jnc _ | .jc _ | .jpo _ | .jpe _ | .jp _ | .jm _ => []
  | .sphl | .lda _ | .sta _ | .lhld _ | .shld _ | .hlt | .movRR _ _ | .movRM _ | .movMR _ | .mviR _ _ | .mviM _ => []
  | .lxi _ _ | .ldax _ | .stax _ | .dcx _ | .inx _ | .pushRp _ | .pushPsw | .popRp _ | .unimplemented _ => []

/-- Where an instruction stores, and how many bytes (R39, 20_memory.md R61). The hooks' stores are not among them. -/
def storedAt (s : State) : Instr → Nat × Nat
  | .movMR _ | .mviM _ | .inrM | .dcrM => (s.hlAddr, 1)
  | .sta addr => (addr.toNat, 1)
  | .stax .bc => ((s.pair .bc).toNat, 1)
  | .stax .de => ((s.pair .de).toNat, 1)
  | .stax .hl | .stax .sp => (0, 0)
  | .shld addr => (addr.toNat, 2)
  | .pushRp _ | .pushPsw | .call _ => (s.sp.toNat, 2)
  | .nop | .jmp _ | .ret | .jnz _ | .jz _ | .jnc _ | .jc _ | .jpo _ | .jpe _ | .jp _ | .jm _ | .out _ | .inp _ => (0, 0)
  | .sphl | .lda _ | .lhld _ | .hlt | .movRR _ _ | .movRM _ | .mviR _ _ | .dcrR _ | .inrR _ => (0, 0)
  | .cmpR _ | .cmpM | .cpi _ | .lxi _ _ | .ldax _ | .dcx _ | .inx _ | .popRp _ | .popPsw | .unimplemented _ => (0, 0)

/-- Whether an instruction calls a hook. -/
def usesPort : Instr → Bool
  | .inp _ | .out _ => true
  | .nop | .jmp _ | .call _ | .ret | .jnz _ | .jz _ | .jnc _ | .jc _ | .jpo _ | .jpe _ | .jp _ | .jm _ => false
  | .sphl | .lda _ | .sta _ | .lhld _ | .shld _ | .hlt | .movRR _ _ | .movRM _ | .movMR _ | .mviR _ _ | .mviM _ => false
  | .dcrR _ | .dcrM | .inrR _ | .inrM | .cmpR _ | .cmpM | .cpi _ | .lxi _ _ | .ldax _ | .stax _ | .dcx _ => false
  | .inx _ | .pushRp _ | .pushPsw | .popRp _ | .popPsw | .unimplemented _ => false

/-- The instructions that end by advancing pc past themselves, whatever they did: all but the unconditional transfers,
HLT and the unimplemented opcodes (10_state.md R34). The conditional jumps advance when they are not taken. -/
def advancesPc : Instr → Bool
  | .jmp _ | .call _ | .ret | .hlt | .unimplemented _ => false
  | .jnz _ | .jz _ | .jnc _ | .jc _ | .jpo _ | .jpe _ | .jp _ | .jm _ => false
  | .nop | .out _ | .inp _ | .sphl | .lda _ | .sta _ | .lhld _ | .shld _ => true
  | .movRR _ _ | .movRM _ | .movMR _ | .mviR _ _ | .mviM _ | .dcrR _ | .dcrM | .inrR _ | .inrM => true
  | .cmpR _ | .cmpM | .cpi _ | .lxi _ _ | .ldax _ | .stax _ | .dcx _ | .inx _ => true
  | .pushRp _ | .pushPsw | .popRp _ | .popPsw => true

/-- The conditional jump of a condition (41_control_flow.md R123 to R130). -/
def jumpOn : Cond → Word → Instr
  | .nz, target => .jnz target
  | .z, target => .jz target
  | .nc, target => .jnc target
  | .c, target => .jc target
  | .po, target => .jpo target
  | .pe, target => .jpe target
  | .p, target => .jp target
  | .m, target => .jm target

end Sys2Proof.Machine
end

