-- ==== Sys2Proof/Certificates/Slice0/Obligations.lean ====
section
/-! DEFINITION. The statements for the provers, from the numbered rules of spec/. -/

open Sys2Proof Sys2Proof.Machine

/-! ### Helpers and views -/

/-- R22: selectors 0 to 7 name B, C, D, E, H, L, M, A; reading and writing a register operand touches that register, and M
is the byte at HL. -/
def Obligations.RegisterSelectorNamesOperand : Prop :=
  (operandOf 0 = .reg .b ∧ operandOf 1 = .reg .c ∧ operandOf 2 = .reg .d ∧ operandOf 3 = .reg .e ∧
    operandOf 4 = .reg .h ∧ operandOf 5 = .reg .l ∧ operandOf 6 = .mem ∧ operandOf 7 = .reg .a) ∧
  (∀ (s : State) (r : Reg), s.readOperand (.reg r) = .ok (s.reg r)) ∧
  (∀ s : State, s.readOperand .mem = s.memRead (pairOf s.h s.l).toNat) ∧
  (∀ (s : State) (r : Reg) (v : Byte), ∃ t, s.writeOperand (.reg r) v = .ok t ∧ t.reg r = v ∧ SameRegsBut [r] s t) ∧
  (∀ (s : State) (v : Byte), s.writeOperand .mem v = s.memWrite (pairOf s.h s.l).toNat v) ∧
  (∀ v : Byte, decode [0x34] = .ok (.inrM, []) ∧ decode [0x35] = .ok (.dcrM, []) ∧ decode [0xBE] = .ok (.cmpM, []) ∧
    decode [0x36, v] = .ok (.mviM v, []) ∧ decode [0x7E] = .ok (.movRM .a, []) ∧ decode [0x70] = .ok (.movMR .b, []))

/-- R23: a pair's value is made from its two registers on every read, the first letter the high byte. -/
def Obligations.PairReadIsTheTwoRegisters : Prop :=
  ∀ s : State,
    (s.pair .bc).toNat = s.b.toNat * 256 + s.c.toNat ∧
    (s.pair .de).toNat = s.d.toNat * 256 + s.e.toNat ∧
    (s.pair .hl).toNat = s.h.toNat * 256 + s.l.toNat

/-- R24: a pair write splits the word into the two registers and touches no other; a write of one register shows in the
pair at once. -/
def Obligations.PairWriteSplitsTheWord : Prop :=
  (∀ (s : State) (w : Word), (s.setPair .bc w).b = hi8 w ∧ (s.setPair .bc w).c = lo8 w ∧
    SameRegsBut [.b, .c] s (s.setPair .bc w)) ∧
  (∀ (s : State) (w : Word), (s.setPair .de w).d = hi8 w ∧ (s.setPair .de w).e = lo8 w ∧
    SameRegsBut [.d, .e] s (s.setPair .de w)) ∧
  (∀ (s : State) (w : Word), (s.setPair .hl w).h = hi8 w ∧ (s.setPair .hl w).l = lo8 w ∧
    SameRegsBut [.h, .l] s (s.setPair .hl w)) ∧
  (∀ (s : State) (p : Pair) (w : Word), (s.setPair p w).pair p = w) ∧
  (∀ (s : State) (p : Pair) (v : Byte),
    (s.setReg (pairHigh p) v).pair p = pairOf v (s.reg (pairLow p)) ∧
    (s.setReg (pairLow p) v).pair p = pairOf (s.reg (pairHigh p)) v) ∧
  (∀ w : Word, (hi8 w).toNat = w.toNat / 256 ∧ (lo8 w).toNat = w.toNat % 256)

/-- R35: the eight conditions test Z, C, P and S; none reads AC. -/
def Obligations.ConditionsTestTheirFlag : Prop :=
  ∀ f : Byte,
    condHolds f (condOf 0) = !f.getLsbD 6 ∧ condHolds f (condOf 1) = f.getLsbD 6 ∧
    condHolds f (condOf 2) = !f.getLsbD 0 ∧ condHolds f (condOf 3) = f.getLsbD 0 ∧
    condHolds f (condOf 4) = !f.getLsbD 2 ∧ condHolds f (condOf 5) = f.getLsbD 2 ∧
    condHolds f (condOf 6) = !f.getLsbD 7 ∧ condHolds f (condOf 7) = f.getLsbD 7 ∧
    ∀ (v : Bool) (cc : Cond), condHolds (putBit f 4 v) cc = condHolds f cc

/-- R28: the flag update recomputes each requested flag from the result and the carry, leaves every other flag and AC
unchanged, and fixes the byte. -/
def Obligations.UpdateFlagsRecomputesTheRequested : Prop :=
  ∀ (f result : Byte) (carry : Bool) (which : FlagSet),
    flagS (updateFlags f result carry which) = (if which.s then result.getLsbD 7 else flagS f) ∧
    flagZ (updateFlags f result carry which) = (if which.z then decide (result = 0) else flagZ f) ∧
    flagP (updateFlags f result carry which) = (if which.p then evenParity result else flagP f) ∧
    flagC (updateFlags f result carry which) = (if which.c then carry else flagC f) ∧
    flagAC (updateFlags f result carry which) = flagAC f ∧
    updateFlags f result carry which = fix (updateFlags f result carry which)

/-- R29: parity is set when the result has an even number of 1 bits, which for a byte is an even number of 0 bits. -/
def Obligations.ParityCountsOneBits : Prop :=
  (∀ v : Byte, evenParity v = true ↔ ((List.range 8).filter (fun i => v.getLsbD i)).length % 2 = 0) ∧
  (∀ v : Byte, evenParity v = true ↔ ((List.range 8).filter (fun i => !v.getLsbD i)).length % 2 = 0) ∧
  evenParity 0x00 = true ∧ evenParity 0x03 = true ∧ evenParity 0x07 = false ∧ evenParity 0x29 = false ∧
  (∀ (f result : Byte) (carry : Bool) (which : FlagSet), which.p = true →
    flagP (updateFlags f result carry which) = evenParity result)

/-- R31 and R32: the PSW is the fixed flags byte over A, so that as a word in memory A is at the lower address; writing it
loads A and the fixed flags. -/
def Obligations.PswIsFlagsOverAccumulator : Prop :=
  (∀ s : State, hi8 s.psw = fix s.f ∧ lo8 s.psw = s.a) ∧
  (∀ (s t : State) (addr : Nat), s.mem.wf → s.memWriteWord addr s.psw = .ok t →
    t.byteAt addr = s.a ∧ t.byteAt (addr + 1) = fix s.f) ∧
  (∀ (s : State) (w : Word), (s.setPsw w).a = lo8 w ∧ (s.setPsw w).f = fix (hi8 w) ∧ SameRegsBut [.a] s (s.setPsw w)) ∧
  (∀ (s : State) (w : Word), flagS (s.setPsw w).f = (hi8 w).getLsbD 7 ∧ flagZ (s.setPsw w).f = (hi8 w).getLsbD 6 ∧
    flagAC (s.setPsw w).f = (hi8 w).getLsbD 4 ∧ flagP (s.setPsw w).f = (hi8 w).getLsbD 2 ∧
    flagC (s.setPsw w).f = (hi8 w).getLsbD 0)

/-! ### Memory and stack operations -/

/-- R52 and R53: a byte access outside `[0, L)` is OutOfBounds with its address; inside, a read gives the byte and a write
stores it and leaves every other byte. -/
def Obligations.ByteAccessIsBoundsChecked : Prop :=
  (∀ (s : State) (addr : Nat), addr < s.memLen → s.memRead addr = .ok (s.byteAt addr)) ∧
  (∀ (s : State) (addr : Nat), s.memLen ≤ addr → s.memRead addr = .error (.outOfBounds addr)) ∧
  (∀ (s : State) (addr : Nat) (v : Byte), s.mem.wf → addr < s.memLen →
    ∃ t, s.memWrite addr v = .ok t ∧ t.byteAt addr = v ∧ SameMemBut addr 1 s t ∧ t.memLen = s.memLen) ∧
  (∀ (s : State) (addr : Nat) (v : Byte), s.memLen ≤ addr → s.memWrite addr v = .error (.outOfBounds addr))

/-- R54 and R55: a word is little-endian, both its bounds are checked, the lower address first, before anything is
written, and its second address does not wrap. -/
def Obligations.WordAccessIsLittleEndian : Prop :=
  (∀ (s : State) (addr : Nat), addr + 1 < s.memLen →
    ∃ w, s.memReadWord addr = .ok w ∧ w.toNat = (s.byteAt (addr + 1)).toNat * 256 + (s.byteAt addr).toNat) ∧
  (∀ (s : State) (addr : Nat), s.memLen ≤ addr → s.memReadWord addr = .error (.outOfBounds addr)) ∧
  (∀ (s : State) (addr : Nat), addr < s.memLen → s.memLen ≤ addr + 1 →
    s.memReadWord addr = .error (.outOfBounds (addr + 1 : Nat))) ∧
  (∀ (s : State) (addr : Nat) (w : Word), s.mem.wf → addr + 1 < s.memLen →
    ∃ t, s.memWriteWord addr w = .ok t ∧ t.byteAt addr = lo8 w ∧ t.byteAt (addr + 1) = hi8 w ∧ SameMemBut addr 2 s t) ∧
  (∀ (s : State) (addr : Nat) (w : Word), s.memLen ≤ addr → s.memWriteWord addr w = .error (.outOfBounds addr)) ∧
  (∀ (s : State) (addr : Nat) (w : Word), addr < s.memLen → s.memLen ≤ addr + 1 →
    s.memWriteWord addr w = .error (.outOfBounds (addr + 1 : Nat)))

/-- R110: push checks SP, SP + 1 and the new SP in that order, stores the word at SP and adds 2 to SP. -/
def Obligations.PushGrowsUpward : Prop :=
  (∀ (s : State) (w : Word), s.mem.wf → s.sp.toNat + 1 < s.memLen → s.sp.toNat + 2 ≤ 0xFFFF →
    ∃ t, s.push w = .ok t ∧ t.byteAt s.sp.toNat = lo8 w ∧ t.byteAt (s.sp.toNat + 1) = hi8 w ∧
      SameMemBut s.sp.toNat 2 s t ∧ t.sp.toNat = s.sp.toNat + 2) ∧
  (∀ (s : State) (w : Word), s.memLen ≤ s.sp.toNat → s.push w = .error (.outOfBounds s.sp.toNat)) ∧
  (∀ (s : State) (w : Word), s.sp.toNat < s.memLen → s.memLen ≤ s.sp.toNat + 1 →
    s.push w = .error (.outOfBounds (s.sp.toNat + 1 : Nat))) ∧
  (∀ (s : State) (w : Word), s.sp.toNat + 1 < s.memLen → 0xFFFF < s.sp.toNat + 2 →
    s.push w = .error (.outOfBounds (s.sp.toNat + 2 : Nat)))

/-- R111: pop checks that SP is at least 2, reads the word below SP, and takes 2 from SP; nothing wraps; a push followed at
once by a pop gives the word back and the SP it started from. -/
def Obligations.PopReadsBelowStackPointer : Prop :=
  (∀ s : State, 2 ≤ s.sp.toNat → s.sp.toNat - 1 < s.memLen →
    ∃ w t, s.pop = .ok (w, t) ∧
      w.toNat = (s.byteAt (s.sp.toNat - 1)).toNat * 256 + (s.byteAt (s.sp.toNat - 2)).toNat ∧
      t = { s with sp := t.sp } ∧ t.sp.toNat = s.sp.toNat - 2) ∧
  (∀ s : State, s.sp.toNat < 2 → s.pop = .error (.outOfBounds ((s.sp.toNat : Int) - 2))) ∧
  (∀ s : State, 2 ≤ s.sp.toNat → s.memLen ≤ s.sp.toNat - 2 → s.pop = .error (.outOfBounds (s.sp.toNat - 2 : Nat))) ∧
  (∀ s : State, 2 ≤ s.sp.toNat → s.sp.toNat - 2 < s.memLen → s.memLen ≤ s.sp.toNat - 1 →
    s.pop = .error (.outOfBounds (s.sp.toNat - 1 : Nat))) ∧
  (∀ (s t : State) (w : Word), s.mem.wf → s.push w = .ok t → ∃ u, t.pop = .ok (w, u) ∧ u.sp = s.sp)

/-! ### Decoding and encoding -/

/-- Decoding gives back every well-formed instruction from its encoding, whatever bytes follow. -/
def Obligations.DecodeOfEncodeGivesInstructionBack : Prop :=
  ∀ (i : Instr) (rest : List Byte), i.wf = true → decode (encode i ++ rest) = .ok (i, rest)

/-- Whatever bytes decode, they decode to a well-formed instruction and are its encoding, followed by the rest. -/
def Obligations.EncodeOfDecodeGivesBytesBack : Prop :=
  ∀ (bytes rest : List Byte) (i : Instr), decode bytes = .ok (i, rest) → i.wf = true ∧ encode i ++ rest = bytes

/-- Eleven sample words written out from the patterns of 30_encoding.md R85 decode to the instructions they stand for. -/
def Obligations.SampleWordsDecode : Prop :=
  decode [0x00] = .ok (.nop, []) ∧
  decode [0xC3, 0x34, 0x12] = .ok (.jmp 0x1234, []) ∧
  decode [0xE2, 0x00, 0x30] = .ok (.jpo 0x3000, []) ∧
  decode [0x76] = .ok (.hlt, []) ∧
  decode [0x78] = .ok (.movRR .a .b, []) ∧
  decode [0x3A, 0x15, 0x00] = .ok (.lda 0x0015, []) ∧
  decode [0x35] = .ok (.dcrM, []) ∧
  decode [0x31, 0x18, 0x00] = .ok (.lxi .sp 0x0018, []) ∧
  decode [0xF5] = .ok (.pushPsw, []) ∧
  decode [0xD3, 0x01] = .ok (.out 0x01, []) ∧
  decode [0xCB] = .ok (.unimplemented 0xCB, [])

/-- No two patterns of one priority level match one opcode; where patterns of several levels match, the opcode decodes by
the one of the lowest level; where none matches, by the fallback. 0x76, which the MOV pattern matches too, is HLT. -/
def Obligations.PatternOrderSettlesTheOverlaps : Prop :=
  (∀ op : Byte, patterns.Pairwise (fun p q => p.priority = q.priority → ¬ (p.hits op = true ∧ q.hits op = true))) ∧
  (∀ (op : Byte) (p : Pattern), p ∈ patterns → p.hits op = true →
    (∀ q ∈ patterns, q.hits op = true → p.priority ≤ q.priority) → decodeHead op = p.build op) ∧
  (∀ op : Byte, (∀ p ∈ patterns, p.hits op = false) → decodeHead op = .op (.unimplemented op)) ∧
  decode [0x76] = .ok (.hlt, [])

/-- R86: the 116 listed opcodes match no pattern, no other opcode is one of them, and each raises
UnimplementedOpcode(op). -/
def Obligations.UnimplementedOpcodesAreTheListed : Prop :=
  unimplementedOpcodes.length = 116 ∧ unimplementedOpcodes.Nodup ∧
  (∀ op ∈ unimplementedOpcodes, ∀ rest, decode (op :: rest) = .ok (.unimplemented op, rest)) ∧
  (∀ (op : Byte) (rest after : List Byte) (i : Instr), op ∉ unimplementedOpcodes →
    decode (op :: rest) = .ok (i, after) → ∀ q, i ≠ .unimplemented q) ∧
  (∀ (op : Byte) (s : State), exec (.unimplemented op) s = .next (s.faultedWith (.unimplementedOpcode op)))

/-- R87: no bytes decode to LDAX or STAX with selector 2 or 3 (those opcodes are LHLD, LDA, SHLD and STA), no step raises
InvalidRegisterPairSelector, whatever its opcode, and the check stays: such an instruction raises it before anything else. -/
def Obligations.InvalidPairSelectorIsUnreachable : Prop :=
  (∀ (bytes rest : List Byte) (i : Instr), decode bytes = .ok (i, rest) →
    i ≠ .ldax .hl ∧ i ≠ .ldax .sp ∧ i ≠ .stax .hl ∧ i ≠ .stax .sp) ∧
  (∀ lo hi : Byte, decode [0x22, lo, hi] = .ok (.shld (pairOf hi lo), []) ∧
    decode [0x2A, lo, hi] = .ok (.lhld (pairOf hi lo), []) ∧
    decode [0x32, lo, hi] = .ok (.sta (pairOf hi lo), []) ∧
    decode [0x3A, lo, hi] = .ok (.lda (pairOf hi lo), [])) ∧
  (∀ (s t : State) (value : BitVec 2) (context : String), step s = .next t →
    t.status ≠ .faulted (.invalidRegisterPairSelector value context)) ∧
  (∀ s : State,
    exec (.ldax .hl) s = .next (s.faultedWith (.invalidRegisterPairSelector 2 "LDAX")) ∧
    exec (.ldax .sp) s = .next (s.faultedWith (.invalidRegisterPairSelector 3 "LDAX")) ∧
    exec (.stax .hl) s = .next (s.faultedWith (.invalidRegisterPairSelector 2 "STAX")) ∧
    exec (.stax .sp) s = .next (s.faultedWith (.invalidRegisterPairSelector 3 "STAX")))

/-! ### The step -/

/-- When the machine is Running and the bytes at pc decode to an instruction, and as many bytes as the window reads lie in
memory, the step is the instruction's execution at that state. Nothing is added around it: the meaning itself moves pc. -/
def Obligations.StepRunsDecodedInstruction : Prop :=
  ∀ (s : State) (i : Instr) (rest : List Byte), s.status = .running → decode s.windowBytes = .ok (i, rest) →
    s.pc.toNat + (if s.window = .exact then i.length else 3) ≤ s.memLen → step s = exec i s

/-- The fetch raises OutOfBounds with the first byte it needs that lies outside memory: under `exact` the opcode byte, then
the operand bytes the length asks for; under `three` any of three, lowest first, before the opcode is looked at. -/
def Obligations.FetchOutsideMemoryTraps : Prop :=
  ∀ s : State, s.status = .running →
    (s.memLen ≤ s.pc.toNat → step s = .next (s.faultedWith (.outOfBounds s.pc.toNat))) ∧
    (s.window = .exact → s.memLen = s.pc.toNat + 1 → 2 ≤ (decodeHead (s.byteAt s.pc.toNat)).length →
      step s = .next (s.faultedWith (.outOfBounds (s.pc.toNat + 1 : Nat)))) ∧
    (s.window = .exact → s.memLen = s.pc.toNat + 2 → (decodeHead (s.byteAt s.pc.toNat)).length = 3 →
      step s = .next (s.faultedWith (.outOfBounds (s.pc.toNat + 2 : Nat)))) ∧
    (s.window = .three → s.memLen = s.pc.toNat + 1 →
      step s = .next (s.faultedWith (.outOfBounds (s.pc.toNat + 1 : Nat)))) ∧
    (s.window = .three → s.memLen = s.pc.toNat + 2 →
      step s = .next (s.faultedWith (.outOfBounds (s.pc.toNat + 2 : Nat))))

/-- A step after the end has no effect and reports the outcome again. That it reports it as the host's `fault` is the
model's choice (notes/assumptions/7.md). -/
def Obligations.StepAfterEndRepeatsOutcome : Prop :=
  (∀ s : State, s.status = .halted → step s = .fault .halted) ∧
  (∀ (s : State) (e : Error), s.status = .faulted e → step s = .fault (.faulted e))

/-- A Running machine always answers a next state: no step of it is refused or stops without one. -/
def Obligations.RunningStepAlwaysAnswers : Prop :=
  ∀ s : State, s.status = .running → ∃ t, step s = .next t

/-- R188: a step that fails changes nothing but `status`: registers, flags, SP, pc, memory, the parameters and the port log
are as before. In particular no hook was called, since a called hook is logged. -/
def Obligations.FailingStepChangesOnlyStatus : Prop :=
  ∀ s t : State, step s = .next t → t.status ≠ .running → t = { s with status := t.status }

/-- Every instruction leaves `status` as it was, or raises an error with nothing else changed, or is HLT. -/
def Obligations.InstructionCompletesOrRaises : Prop :=
  ∀ (i : Instr) (s t : State), exec i s = .next t →
    t.status = s.status ∨ (∃ e, t = s.faultedWith e) ∨ (i = .hlt ∧ t = s.haltedNow)

/-! ### Invariants -/

/-- The invariant holds after reset. The memory size, the registers and the flags of State.reset are the model's choice
(notes/assumptions/1.md, 2.md). -/
def Obligations.ResetMeetsInvariant : Prop := State.reset.Inv

/-- What the spec gives the state after reset: pc and SP are 0, the fixed flag bits are 1, 0, 0, the status is Running; and
State.reset is the raw construction of 65536 zero bytes, by the model's choice (notes/assumptions/1.md, 2.md, 4.md, 5.md). -/
def Obligations.ResetIsARawConstruction : Prop :=
  State.reset.pc = 0 ∧ State.reset.sp = 0 ∧ State.reset.status = .running ∧
  State.reset.f.getLsbD 1 = true ∧ State.reset.f.getLsbD 3 = false ∧ State.reset.f.getLsbD 5 = false ∧
  State.constructRaw (List.replicate 65536 0) ⟨⟨0, 0, 0, 0, 0, 0, 0, 0⟩, .exact, true, true⟩ = some State.reset

/-- Every step keeps the invariant: memory canonical and inside `[0, L)`, `L` at most 65536, the flags byte fixed. -/
def Obligations.StepKeepsInvariant : Prop :=
  ∀ s t : State, s.Inv → step s = .next t → t.Inv

/-- The run's parameters never change: `L`, the fetch window, and which hooks are registered. -/
def Obligations.StepKeepsParameters : Prop :=
  ∀ s t : State, step s = .next t → SameParams s t

/-- R30: no instruction computes AC. Every instruction but POP PSW leaves it as it was, unless a hook ran; POP PSW loads it
from the popped word; after construction it is that of INIT_REGS. -/
def Obligations.AuxiliaryCarryIsNeverComputed : Prop :=
  (∀ (i : Instr) (s t : State), exec i s = .next t → i ≠ .popPsw → usesPort i = false → flagAC t.f = flagAC s.f) ∧
  (∀ (f result : Byte) (carry : Bool) (which : FlagSet), flagAC (updateFlags f result carry which) = flagAC f) ∧
  (∀ s t : State, exec .popPsw s = .next t → t.status = s.status → s.status = .running →
    flagAC t.f = (s.byteAt (s.sp.toNat - 1)).getLsbD 4) ∧
  (∀ (image : List Byte) (base : Nat) (x : Launch) (s : State), State.construct image base x = some s →
    flagAC s.f = flagAC x.init.f)

/-! ### Frames: what an instruction leaves unchanged -/

/-- Every data register outside the instruction's row of R39 is unchanged. -/
def Obligations.RegisterFrame : Prop :=
  ∀ (i : Instr) (s t : State), exec i s = .next t → SameRegsBut (destRegs i) s t

/-- SP is unchanged by every instruction outside its row of R39, the port instructions' hooks among them. -/
def Obligations.StackPointerFrame : Prop :=
  ∀ (i : Instr) (s t : State), exec i s = .next t → writesSp i = false → t.sp = s.sp

/-- Every bit of F outside the instruction's row of R40 is unchanged, in a state whose flags byte is fixed. -/
def Obligations.FlagFrame : Prop :=
  ∀ (i : Instr) (s t : State), exec i s = .next t → s.f = fix s.f →
    ∀ n, n ∉ flagBits i → t.f.getLsbD n = s.f.getLsbD n

/-- Every byte of memory outside those the instruction stores reads as before; the port instructions, whose hook may store
inside `[0, L)`, leave every byte outside it. -/
def Obligations.MemoryFrame : Prop :=
  ∀ (i : Instr) (s t : State), exec i s = .next t →
    (usesPort i = false → SameMemBut (storedAt s i).1 (storedAt s i).2 s t) ∧
    (usesPort i = true → ∀ addr, s.memLen ≤ addr → t.byteAt addr = s.byteAt addr)

/-- Only IN and OUT make a port transaction, and one that completes makes exactly one. -/
def Obligations.PortFrame : Prop :=
  ∀ (i : Instr) (s t : State), exec i s = .next t →
    (usesPort i = false → t.ports = s.ports) ∧
    (usesPort i = true → s.status = .running → t.status = .running → ∃ ev, t.ports = ev :: s.ports)

/-! ### Control flow -/

/-- R120, NOP: pc advances by 1 and nothing else changes; at 0xFFFF it traps. -/
def Obligations.NopChangesOnlyPc : Prop :=
  decode [0x00] = .ok (.nop, []) ∧
  (∀ s : State, s.pc.toNat + 1 ≤ 0xFFFF →
    ∃ t, exec .nop s = .next t ∧ t.pc.toNat = s.pc.toNat + 1 ∧ t = { s with pc := t.pc }) ∧
  (∀ s : State, PastTop 1 .nop s)

/-- R121, JMP: pc becomes the two address bytes, low byte first, whatever pc was; nothing else changes. -/
def Obligations.JmpSetsPc : Prop :=
  (∀ lo hi : Byte, decode [0xC3, lo, hi] = .ok (.jmp (pairOf hi lo), [])) ∧
  (∀ (target : Word) (s : State), exec (.jmp target) s = .next { s with pc := target })

/-- R122 to R130, JNZ, JZ, JNC, JC, JPO, JPE, JP and JM: taken when the condition holds, else pc advances by 3, or traps
when that would pass 0xFFFF; nothing else changes. -/
def Obligations.ConditionalJumpsFollowTheirFlag : Prop :=
  (∀ lo hi : Byte,
    decode [0xC2, lo, hi] = .ok (.jnz (pairOf hi lo), []) ∧ decode [0xCA, lo, hi] = .ok (.jz (pairOf hi lo), []) ∧
    decode [0xD2, lo, hi] = .ok (.jnc (pairOf hi lo), []) ∧ decode [0xDA, lo, hi] = .ok (.jc (pairOf hi lo), []) ∧
    decode [0xE2, lo, hi] = .ok (.jpo (pairOf hi lo), []) ∧ decode [0xEA, lo, hi] = .ok (.jpe (pairOf hi lo), []) ∧
    decode [0xF2, lo, hi] = .ok (.jp (pairOf hi lo), []) ∧ decode [0xFA, lo, hi] = .ok (.jm (pairOf hi lo), [])) ∧
  (∀ (target : Word) (s : State),
    (flagZ s.f = false → exec (.jnz target) s = .next { s with pc := target }) ∧
    (flagZ s.f = true → exec (.jz target) s = .next { s with pc := target }) ∧
    (flagC s.f = false → exec (.jnc target) s = .next { s with pc := target }) ∧
    (flagC s.f = true → exec (.jc target) s = .next { s with pc := target }) ∧
    (flagP s.f = false → exec (.jpo target) s = .next { s with pc := target }) ∧
    (flagP s.f = true → exec (.jpe target) s = .next { s with pc := target }) ∧
    (flagS s.f = false → exec (.jp target) s = .next { s with pc := target }) ∧
    (flagS s.f = true → exec (.jm target) s = .next { s with pc := target }) ∧
    (∀ cc : Cond, condHolds s.f cc = false → s.pc.toNat + 3 ≤ 0xFFFF →
      ∃ t, exec (jumpOn cc target) s = .next t ∧ t.pc.toNat = s.pc.toNat + 3 ∧ t = { s with pc := t.pc }) ∧
    (∀ cc : Cond, condHolds s.f cc = false → PastTop 3 (jumpOn cc target) s))

/-- R131, CALL: stores pc + 3 at SP, low byte first, adds 2 to SP and jumps; it traps before it writes when the return
address would pass 0xFFFF, and raises what push raises. -/
def Obligations.CallPushesReturnAddress : Prop :=
  (∀ lo hi : Byte, decode [0xCD, lo, hi] = .ok (.call (pairOf hi lo), [])) ∧
  (∀ (target : Word) (s : State), s.mem.wf → s.pc.toNat + 3 ≤ 0xFFFF → s.sp.toNat + 1 < s.memLen →
    s.sp.toNat + 2 ≤ 0xFFFF →
    ∃ t, exec (.call target) s = .next t ∧ t.pc = target ∧ t.sp.toNat = s.sp.toNat + 2 ∧
      (t.byteAt (s.sp.toNat + 1)).toNat * 256 + (t.byteAt s.sp.toNat).toNat = s.pc.toNat + 3 ∧
      SameMemBut s.sp.toNat 2 s t ∧ SameRegsBut [] s t ∧ t.f = s.f ∧ SameControl s t) ∧
  (∀ (target : Word) (s : State), PastTop 3 (.call target) s) ∧
  (∀ (target : Word) (s : State) (e : Error), s.pc.toNat + 3 ≤ 0xFFFF →
    s.push (BitVec.ofNat 16 (s.pc.toNat + 3)) = .error e → exec (.call target) s = .next (s.faultedWith e))

/-- R132, RET: the two bytes below SP go to pc and SP goes down by 2; it raises what pop raises. -/
def Obligations.RetPopsIntoPc : Prop :=
  decode [0xC9] = .ok (.ret, []) ∧
  (∀ s : State, 2 ≤ s.sp.toNat → s.sp.toNat - 1 < s.memLen →
    ∃ t, exec .ret s = .next t ∧
      t.pc.toNat = (s.byteAt (s.sp.toNat - 1)).toNat * 256 + (s.byteAt (s.sp.toNat - 2)).toNat ∧
      t.sp.toNat = s.sp.toNat - 2 ∧ t = { s with pc := t.pc, sp := t.sp }) ∧
  (∀ (s : State) (e : Error), s.pop = .error e → exec .ret s = .next (s.faultedWith e))

/-- A CALL followed at once by a RET from the called address leaves pc at the CALL's address + 3 and SP as it was, for any
SP with room for the push. -/
def Obligations.CallThenRetIsNetZero : Prop :=
  ∀ (target : Word) (s : State), s.mem.wf → s.pc.toNat + 3 ≤ 0xFFFF → s.sp.toNat + 1 < s.memLen →
    s.sp.toNat + 2 ≤ 0xFFFF →
    ∃ t u, exec (.call target) s = .next t ∧ exec .ret t = .next u ∧ u.pc.toNat = s.pc.toNat + 3 ∧ u.sp = s.sp

/-- R133, HLT: `status` becomes Halted and nothing else changes, so pc stays at the HLT. -/
def Obligations.HltSetsOnlyStatus : Prop :=
  decode [0x76] = .ok (.hlt, []) ∧
  (∀ s : State, exec .hlt s = .next { s with status := .halted })

/-- R134: a jump, call or return target is written to pc unchecked, and the next fetch at or beyond `L` raises
OutOfBounds; a target inside memory decodes from that byte, wherever it lies. -/
def Obligations.TargetsAreCheckedByTheNextFetch : Prop :=
  (∀ (target : Word) (s : State), exec (.jmp target) s = .next (s.setPc target)) ∧
  (∀ (cc : Cond) (target : Word) (s : State), condHolds s.f cc = true →
    exec (jumpOn cc target) s = .next (s.setPc target)) ∧
  (∀ (target : Word) (s t : State), exec (.call target) s = .next t → s.status = .running → t.status = .running →
    t.pc = target) ∧
  (∀ (s t u : State) (w : Word), s.pop = .ok (w, u) → exec .ret s = .next t → t.pc = w) ∧
  (∀ (s : State) (target : Word), s.status = .running → s.memLen ≤ target.toNat →
    step (s.setPc target) = .next ((s.setPc target).faultedWith (.outOfBounds target.toNat))) ∧
  (∀ (s : State) (target : Word) (i : Instr) (rest : List Byte), s.status = .running → target.toNat + 3 ≤ s.memLen →
    decode (s.setPc target).windowBytes = .ok (i, rest) → step (s.setPc target) = exec i (s.setPc target))

/-- An instruction that advances pc traps, with nothing changed, when the advance would pass 0xFFFF, whatever else it would
have met; LDAX and STAX with a bad selector trap on that first. -/
def Obligations.AdvancePastTopTraps : Prop :=
  ∀ (i : Instr) (s : State), advancesPc i = true → i.wf = true → 0xFFFF < s.pc.toNat + i.length →
    exec i s = .next (s.faultedWith (.outOfBounds (s.pc.toNat + i.length : Nat)))

/-! ### Stack instructions -/

/-- R112 and R113, PUSH rp and PUSH PSW: the pair, or A below the fixed flags, is stored at SP low byte first; SP goes up
by 2. What push raises is raised, with nothing changed. -/
def Obligations.PushInstructionsStoreTheWord : Prop :=
  (decode [0xC5] = .ok (.pushRp .bc, []) ∧ decode [0xD5] = .ok (.pushRp .de, []) ∧
    decode [0xE5] = .ok (.pushRp .hl, []) ∧ decode [0xF5] = .ok (.pushPsw, [])) ∧
  (∀ (p : Pair) (s : State), s.mem.wf → s.pc.toNat + 1 ≤ 0xFFFF → s.sp.toNat + 1 < s.memLen → s.sp.toNat + 2 ≤ 0xFFFF →
    ∃ t, exec (.pushRp p) s = .next t ∧ t.byteAt s.sp.toNat = s.reg (pairLow p) ∧
      t.byteAt (s.sp.toNat + 1) = s.reg (pairHigh p) ∧ t.sp.toNat = s.sp.toNat + 2 ∧
      SameMemBut s.sp.toNat 2 s t ∧ SameRegsBut [] s t ∧ t.f = s.f ∧ Advanced 1 s t) ∧
  (∀ s : State, s.mem.wf → s.pc.toNat + 1 ≤ 0xFFFF → s.sp.toNat + 1 < s.memLen → s.sp.toNat + 2 ≤ 0xFFFF →
    ∃ t, exec .pushPsw s = .next t ∧ t.byteAt s.sp.toNat = s.a ∧ t.byteAt (s.sp.toNat + 1) = fix s.f ∧
      t.sp.toNat = s.sp.toNat + 2 ∧ SameMemBut s.sp.toNat 2 s t ∧ SameRegsBut [] s t ∧ t.f = s.f ∧ Advanced 1 s t) ∧
  (∀ (p : Pair) (s : State), PastTop 1 (.pushRp p) s ∧ PastTop 1 .pushPsw s) ∧
  (∀ (s : State) (e : Error), s.pc.toNat + 1 ≤ 0xFFFF →
    (∀ p : Pair, s.push (s.pair p) = .error e → exec (.pushRp p) s = .next (s.faultedWith e)) ∧
    (s.push s.psw = .error e → exec .pushPsw s = .next (s.faultedWith e)))

/-- R114 and R115, POP rp and POP PSW: the two bytes below SP go to the pair, or to A and, fixed, to the flags; SP goes down
by 2. What pop raises is raised, with nothing changed. -/
def Obligations.PopInstructionsLoadTheWord : Prop :=
  (decode [0xC1] = .ok (.popRp .bc, []) ∧ decode [0xD1] = .ok (.popRp .de, []) ∧
    decode [0xE1] = .ok (.popRp .hl, []) ∧ decode [0xF1] = .ok (.popPsw, [])) ∧
  (∀ (p : Pair) (s : State), s.pc.toNat + 1 ≤ 0xFFFF → 2 ≤ s.sp.toNat → s.sp.toNat - 1 < s.memLen →
    ∃ t, exec (.popRp p) s = .next t ∧ t.reg (pairLow p) = s.byteAt (s.sp.toNat - 2) ∧
      t.reg (pairHigh p) = s.byteAt (s.sp.toNat - 1) ∧ t.sp.toNat = s.sp.toNat - 2 ∧
      SameMem s t ∧ SameRegsBut [pairHigh p, pairLow p] s t ∧ t.f = s.f ∧ Advanced 1 s t) ∧
  (∀ s : State, s.pc.toNat + 1 ≤ 0xFFFF → 2 ≤ s.sp.toNat → s.sp.toNat - 1 < s.memLen →
    ∃ t, exec .popPsw s = .next t ∧ t.a = s.byteAt (s.sp.toNat - 2) ∧ t.f = fix (s.byteAt (s.sp.toNat - 1)) ∧
      t.sp.toNat = s.sp.toNat - 2 ∧ SameMem s t ∧ SameRegsBut [.a] s t ∧ Advanced 1 s t) ∧
  (∀ (p : Pair) (s : State), PastTop 1 (.popRp p) s ∧ PastTop 1 .popPsw s) ∧
  (∀ (s : State) (e : Error), s.pc.toNat + 1 ≤ 0xFFFF → s.pop = .error e →
    (∀ p : Pair, exec (.popRp p) s = .next (s.faultedWith e)) ∧ exec .popPsw s = .next (s.faultedWith e))

/-- A PUSH of a pair followed at once by a POP into any pair gives that pair the pushed value and SP its old value. -/
def Obligations.PushThenPopMovesThePair : Prop :=
  ∀ (p q : Pair) (s : State), s.mem.wf → s.pc.toNat + 2 ≤ 0xFFFF → s.sp.toNat + 1 < s.memLen →
    s.sp.toNat + 2 ≤ 0xFFFF →
    ∃ t u, exec (.pushRp p) s = .next t ∧ exec (.popRp q) t = .next u ∧ u.pair q = s.pair p ∧ u.sp = s.sp

/-! ### Increment, decrement, compare -/

/-- R140 and R142, INR r and DCR r: the register plus or minus 1 mod 2^8; S, Z, P of the result; C and AC unchanged. -/
def Obligations.IncDecRegister : Prop :=
  (∀ r : Reg, decode [0x04 + 8 * regSel r] = .ok (.inrR r, []) ∧ decode [0x05 + 8 * regSel r] = .ok (.dcrR r, [])) ∧
  (∀ (r : Reg) (s : State), s.pc.toNat + 1 ≤ 0xFFFF →
    (∃ t, exec (.inrR r) s = .next t ∧ (t.reg r).toNat = ((s.reg r).toNat + 1) % 256 ∧ FlagsOf (t.reg r) s t ∧
      flagC t.f = flagC s.f ∧ SameRegsBut [r] s t ∧ t.sp = s.sp ∧ SameMem s t ∧ Advanced 1 s t) ∧
    (∃ t, exec (.dcrR r) s = .next t ∧ (t.reg r).toNat = ((s.reg r).toNat + 255) % 256 ∧ FlagsOf (t.reg r) s t ∧
      flagC t.f = flagC s.f ∧ SameRegsBut [r] s t ∧ t.sp = s.sp ∧ SameMem s t ∧ Advanced 1 s t)) ∧
  (∀ (r : Reg) (s : State), PastTop 1 (.inrR r) s ∧ PastTop 1 (.dcrR r) s)

/-- R141 and R143, INR M and DCR M: the byte at HL plus or minus 1 mod 2^8; flags as for a register. -/
def Obligations.IncDecMemory : Prop :=
  (decode [0x34] = .ok (.inrM, []) ∧ decode [0x35] = .ok (.dcrM, [])) ∧
  (∀ s : State, s.mem.wf → s.pc.toNat + 1 ≤ 0xFFFF → (s.pair .hl).toNat < s.memLen →
    (∃ t, exec .inrM s = .next t ∧
      (t.byteAt (s.pair .hl).toNat).toNat = ((s.byteAt (s.pair .hl).toNat).toNat + 1) % 256 ∧
      FlagsOf (t.byteAt (s.pair .hl).toNat) s t ∧ flagC t.f = flagC s.f ∧ SameMemBut (s.pair .hl).toNat 1 s t ∧
      SameRegsBut [] s t ∧ t.sp = s.sp ∧ Advanced 1 s t) ∧
    (∃ t, exec .dcrM s = .next t ∧
      (t.byteAt (s.pair .hl).toNat).toNat = ((s.byteAt (s.pair .hl).toNat).toNat + 255) % 256 ∧
      FlagsOf (t.byteAt (s.pair .hl).toNat) s t ∧ flagC t.f = flagC s.f ∧ SameMemBut (s.pair .hl).toNat 1 s t ∧
      SameRegsBut [] s t ∧ t.sp = s.sp ∧ Advanced 1 s t)) ∧
  (∀ s : State, PastTop 1 .inrM s ∧ PastTop 1 .dcrM s) ∧
  (∀ s : State, s.pc.toNat + 1 ≤ 0xFFFF → s.memLen ≤ (s.pair .hl).toNat →
    TrapsAt .inrM s (s.pair .hl).toNat ∧ TrapsAt .dcrM s (s.pair .hl).toNat)

/-- R144 to R146, CMP r, CMP M and CPI: the flags of A - v, C the unsigned borrow; A, every register and memory
unchanged. -/
def Obligations.CompareSetsFlagsOnly : Prop :=
  ((∀ r : Reg, decode [0xB8 + regSel r] = .ok (.cmpR r, [])) ∧ decode [0xBE] = .ok (.cmpM, []) ∧
    ∀ imm : Byte, decode [0xFE, imm] = .ok (.cpi imm, [])) ∧
  (∀ (r : Reg) (s : State), s.pc.toNat + 1 ≤ 0xFFFF → ∃ t, exec (.cmpR r) s = .next t ∧ FlagsOf (s.a - s.reg r) s t ∧
    (flagC t.f = true ↔ s.a.toNat < (s.reg r).toNat) ∧ SameRegsBut [] s t ∧ t.sp = s.sp ∧ SameMem s t ∧
    Advanced 1 s t) ∧
  (∀ s : State, s.pc.toNat + 1 ≤ 0xFFFF → (s.pair .hl).toNat < s.memLen → ∃ t, exec .cmpM s = .next t ∧
    FlagsOf (s.a - s.byteAt (s.pair .hl).toNat) s t ∧
    (flagC t.f = true ↔ s.a.toNat < (s.byteAt (s.pair .hl).toNat).toNat) ∧ SameRegsBut [] s t ∧ t.sp = s.sp ∧
    SameMem s t ∧ Advanced 1 s t) ∧
  (∀ (imm : Byte) (s : State), s.pc.toNat + 2 ≤ 0xFFFF → ∃ t, exec (.cpi imm) s = .next t ∧ FlagsOf (s.a - imm) s t ∧
    (flagC t.f = true ↔ s.a.toNat < imm.toNat) ∧ SameRegsBut [] s t ∧ t.sp = s.sp ∧ SameMem s t ∧ Advanced 2 s t) ∧
  (∀ (r : Reg) (imm : Byte) (s : State), PastTop 1 (.cmpR r) s ∧ PastTop 1 .cmpM s ∧ PastTop 2 (.cpi imm) s) ∧
  (∀ s : State, s.pc.toNat + 1 ≤ 0xFFFF → s.memLen ≤ (s.pair .hl).toNat → TrapsAt .cmpM s (s.pair .hl).toNat)

/-! ### Data movement -/

/-- R150, R151 and R153, MOV r,r', MOV r,M and MVI r: the destination takes the byte; nothing else changes but pc. -/
def Obligations.MovesLoadTheRegister : Prop :=
  (∀ dst src : Reg, decode [0x40 + 8 * regSel dst + regSel src] = .ok (.movRR dst src, [])) ∧
  (∀ dst : Reg, decode [0x46 + 8 * regSel dst] = .ok (.movRM dst, [])) ∧
  (∀ (dst : Reg) (imm : Byte), decode [0x06 + 8 * regSel dst, imm] = .ok (.mviR dst imm, [])) ∧
  (∀ (dst src : Reg) (s : State), s.pc.toNat + 1 ≤ 0xFFFF → ∃ t, exec (.movRR dst src) s = .next t ∧
    t.reg dst = s.reg src ∧ SameRegsBut [dst] s t ∧ t.f = s.f ∧ t.sp = s.sp ∧ SameMem s t ∧ Advanced 1 s t) ∧
  (∀ (dst : Reg) (s : State), s.pc.toNat + 1 ≤ 0xFFFF → (s.pair .hl).toNat < s.memLen →
    ∃ t, exec (.movRM dst) s = .next t ∧ t.reg dst = s.byteAt (s.pair .hl).toNat ∧ SameRegsBut [dst] s t ∧ t.f = s.f ∧
      t.sp = s.sp ∧ SameMem s t ∧ Advanced 1 s t) ∧
  (∀ (dst : Reg) (imm : Byte) (s : State), s.pc.toNat + 2 ≤ 0xFFFF → ∃ t, exec (.mviR dst imm) s = .next t ∧
    t.reg dst = imm ∧ SameRegsBut [dst] s t ∧ t.f = s.f ∧ t.sp = s.sp ∧ SameMem s t ∧ Advanced 2 s t) ∧
  (∀ (dst src : Reg) (imm : Byte) (s : State),
    PastTop 1 (.movRR dst src) s ∧ PastTop 1 (.movRM dst) s ∧ PastTop 2 (.mviR dst imm) s) ∧
  (∀ (dst : Reg) (s : State), s.pc.toNat + 1 ≤ 0xFFFF → s.memLen ≤ (s.pair .hl).toNat →
    TrapsAt (.movRM dst) s (s.pair .hl).toNat)

/-- R152, R154 and R157, MOV M,r, MVI M and STA: one byte is stored at HL or at the direct address; no register or flag
changes. -/
def Obligations.StoresWriteOneByte : Prop :=
  (∀ src : Reg, decode [0x70 + regSel src] = .ok (.movMR src, [])) ∧
  (∀ imm : Byte, decode [0x36, imm] = .ok (.mviM imm, [])) ∧
  (∀ lo hi : Byte, decode [0x32, lo, hi] = .ok (.sta (pairOf hi lo), [])) ∧
  (∀ (src : Reg) (s : State), s.mem.wf → s.pc.toNat + 1 ≤ 0xFFFF → (s.pair .hl).toNat < s.memLen →
    ∃ t, exec (.movMR src) s = .next t ∧ t.byteAt (s.pair .hl).toNat = s.reg src ∧
      SameMemBut (s.pair .hl).toNat 1 s t ∧ SameRegsBut [] s t ∧ t.f = s.f ∧ t.sp = s.sp ∧ Advanced 1 s t) ∧
  (∀ (imm : Byte) (s : State), s.mem.wf → s.pc.toNat + 2 ≤ 0xFFFF → (s.pair .hl).toNat < s.memLen →
    ∃ t, exec (.mviM imm) s = .next t ∧ t.byteAt (s.pair .hl).toNat = imm ∧
      SameMemBut (s.pair .hl).toNat 1 s t ∧ SameRegsBut [] s t ∧ t.f = s.f ∧ t.sp = s.sp ∧ Advanced 2 s t) ∧
  (∀ (addr : Word) (s : State), s.mem.wf → s.pc.toNat + 3 ≤ 0xFFFF → addr.toNat < s.memLen →
    ∃ t, exec (.sta addr) s = .next t ∧ t.byteAt addr.toNat = s.a ∧
      SameMemBut addr.toNat 1 s t ∧ SameRegsBut [] s t ∧ t.f = s.f ∧ t.sp = s.sp ∧ Advanced 3 s t) ∧
  (∀ (src : Reg) (imm : Byte) (addr : Word) (s : State),
    PastTop 1 (.movMR src) s ∧ PastTop 2 (.mviM imm) s ∧ PastTop 3 (.sta addr) s) ∧
  (∀ (src : Reg) (s : State), s.pc.toNat + 1 ≤ 0xFFFF → s.memLen ≤ (s.pair .hl).toNat →
    TrapsAt (.movMR src) s (s.pair .hl).toNat) ∧
  (∀ (imm : Byte) (s : State), s.pc.toNat + 2 ≤ 0xFFFF → s.memLen ≤ (s.pair .hl).toNat →
    TrapsAt (.mviM imm) s (s.pair .hl).toNat) ∧
  (∀ (addr : Word) (s : State), s.pc.toNat + 3 ≤ 0xFFFF → s.memLen ≤ addr.toNat → TrapsAt (.sta addr) s addr.toNat)

/-- R156, LDA: A takes the byte at the direct address; nothing else changes but pc. -/
def Obligations.LdaLoadsTheAccumulator : Prop :=
  (∀ lo hi : Byte, decode [0x3A, lo, hi] = .ok (.lda (pairOf hi lo), [])) ∧
  (∀ (addr : Word) (s : State), s.pc.toNat + 3 ≤ 0xFFFF → addr.toNat < s.memLen → ∃ t, exec (.lda addr) s = .next t ∧
    t.a = s.byteAt addr.toNat ∧ SameRegsBut [.a] s t ∧ t.f = s.f ∧ t.sp = s.sp ∧ SameMem s t ∧ Advanced 3 s t) ∧
  (∀ (addr : Word) (s : State), PastTop 3 (.lda addr) s) ∧
  (∀ (addr : Word) (s : State), s.pc.toNat + 3 ≤ 0xFFFF → s.memLen ≤ addr.toNat → TrapsAt (.lda addr) s addr.toNat)

/-- R160 and R161, LDAX and STAX: a byte between A and the address in BC or DE; selector 2 or 3 raises
InvalidRegisterPairSelector before anything else. -/
def Obligations.IndirectAccumulatorMoves : Prop :=
  (decode [0x0A] = .ok (.ldax .bc, []) ∧ decode [0x1A] = .ok (.ldax .de, []) ∧
    decode [0x02] = .ok (.stax .bc, []) ∧ decode [0x12] = .ok (.stax .de, [])) ∧
  (∀ s : State, s.pc.toNat + 1 ≤ 0xFFFF →
    ((s.pair .bc).toNat < s.memLen → ∃ t, exec (.ldax .bc) s = .next t ∧ t.a = s.byteAt (s.pair .bc).toNat ∧
      SameRegsBut [.a] s t ∧ t.f = s.f ∧ t.sp = s.sp ∧ SameMem s t ∧ Advanced 1 s t) ∧
    ((s.pair .de).toNat < s.memLen → ∃ t, exec (.ldax .de) s = .next t ∧ t.a = s.byteAt (s.pair .de).toNat ∧
      SameRegsBut [.a] s t ∧ t.f = s.f ∧ t.sp = s.sp ∧ SameMem s t ∧ Advanced 1 s t) ∧
    (s.mem.wf → (s.pair .bc).toNat < s.memLen → ∃ t, exec (.stax .bc) s = .next t ∧
      t.byteAt (s.pair .bc).toNat = s.a ∧ SameMemBut (s.pair .bc).toNat 1 s t ∧ SameRegsBut [] s t ∧ t.f = s.f ∧
      t.sp = s.sp ∧ Advanced 1 s t) ∧
    (s.mem.wf → (s.pair .de).toNat < s.memLen → ∃ t, exec (.stax .de) s = .next t ∧
      t.byteAt (s.pair .de).toNat = s.a ∧ SameMemBut (s.pair .de).toNat 1 s t ∧ SameRegsBut [] s t ∧ t.f = s.f ∧
      t.sp = s.sp ∧ Advanced 1 s t) ∧
    (s.memLen ≤ (s.pair .bc).toNat →
      TrapsAt (.ldax .bc) s (s.pair .bc).toNat ∧ TrapsAt (.stax .bc) s (s.pair .bc).toNat) ∧
    (s.memLen ≤ (s.pair .de).toNat →
      TrapsAt (.ldax .de) s (s.pair .de).toNat ∧ TrapsAt (.stax .de) s (s.pair .de).toNat)) ∧
  (∀ s : State, PastTop 1 (.ldax .bc) s ∧ PastTop 1 (.ldax .de) s ∧ PastTop 1 (.stax .bc) s ∧ PastTop 1 (.stax .de) s) ∧
  (∀ s : State,
    exec (.ldax .hl) s = .next (s.faultedWith (.invalidRegisterPairSelector 2 "LDAX")) ∧
    exec (.ldax .sp) s = .next (s.faultedWith (.invalidRegisterPairSelector 3 "LDAX")) ∧
    exec (.stax .hl) s = .next (s.faultedWith (.invalidRegisterPairSelector 2 "STAX")) ∧
    exec (.stax .sp) s = .next (s.faultedWith (.invalidRegisterPairSelector 3 "STAX")))

/-- R158 and R159, LHLD and SHLD: L is the byte at the address and H the byte after it; an address that leaves either byte
outside memory traps with the first such address, and nothing is written. -/
def Obligations.DirectWordMovesHl : Prop :=
  (∀ lo hi : Byte, decode [0x2A, lo, hi] = .ok (.lhld (pairOf hi lo), []) ∧
    decode [0x22, lo, hi] = .ok (.shld (pairOf hi lo), [])) ∧
  (∀ (addr : Word) (s : State), s.pc.toNat + 3 ≤ 0xFFFF → addr.toNat + 1 < s.memLen →
    (∃ t, exec (.lhld addr) s = .next t ∧ t.l = s.byteAt addr.toNat ∧ t.h = s.byteAt (addr.toNat + 1) ∧
      SameRegsBut [.h, .l] s t ∧ t.f = s.f ∧ t.sp = s.sp ∧ SameMem s t ∧ Advanced 3 s t) ∧
    (s.mem.wf → ∃ t, exec (.shld addr) s = .next t ∧ t.byteAt addr.toNat = s.l ∧ t.byteAt (addr.toNat + 1) = s.h ∧
      SameMemBut addr.toNat 2 s t ∧ SameRegsBut [] s t ∧ t.f = s.f ∧ t.sp = s.sp ∧ Advanced 3 s t)) ∧
  (∀ (addr : Word) (s : State), PastTop 3 (.lhld addr) s ∧ PastTop 3 (.shld addr) s) ∧
  (∀ (addr : Word) (s : State), s.pc.toNat + 3 ≤ 0xFFFF → s.memLen ≤ addr.toNat →
    TrapsAt (.lhld addr) s addr.toNat ∧ TrapsAt (.shld addr) s addr.toNat) ∧
  (∀ (addr : Word) (s : State), s.pc.toNat + 3 ≤ 0xFFFF → s.memLen = addr.toNat + 1 →
    TrapsAt (.lhld addr) s (addr.toNat + 1 : Nat) ∧ TrapsAt (.shld addr) s (addr.toNat + 1 : Nat))

/-- R155 and R164, LXI: the pair or SP takes the word. SPHL: SP takes HL, unchecked. Nothing else changes but pc. -/
def Obligations.LxiAndSphlLoadTheWord : Prop :=
  ((∀ lo hi : Byte, decode [0x01, lo, hi] = .ok (.lxi .bc (pairOf hi lo), []) ∧
      decode [0x11, lo, hi] = .ok (.lxi .de (pairOf hi lo), []) ∧
      decode [0x21, lo, hi] = .ok (.lxi .hl (pairOf hi lo), []) ∧
      decode [0x31, lo, hi] = .ok (.lxi .sp (pairOf hi lo), [])) ∧
    decode [0xF9] = .ok (.sphl, [])) ∧
  (∀ (imm : Word) (s : State), s.pc.toNat + 3 ≤ 0xFFFF →
    (∃ t, exec (.lxi .bc imm) s = .next t ∧ t.b = hi8 imm ∧ t.c = lo8 imm ∧ SameRegsBut [.b, .c] s t ∧ t.f = s.f ∧
      t.sp = s.sp ∧ SameMem s t ∧ Advanced 3 s t) ∧
    (∃ t, exec (.lxi .de imm) s = .next t ∧ t.d = hi8 imm ∧ t.e = lo8 imm ∧ SameRegsBut [.d, .e] s t ∧ t.f = s.f ∧
      t.sp = s.sp ∧ SameMem s t ∧ Advanced 3 s t) ∧
    (∃ t, exec (.lxi .hl imm) s = .next t ∧ t.h = hi8 imm ∧ t.l = lo8 imm ∧ SameRegsBut [.h, .l] s t ∧ t.f = s.f ∧
      t.sp = s.sp ∧ SameMem s t ∧ Advanced 3 s t) ∧
    (∃ t, exec (.lxi .sp imm) s = .next t ∧ t.sp = imm ∧ SameRegsBut [] s t ∧ t.f = s.f ∧ SameMem s t ∧
      Advanced 3 s t)) ∧
  (∀ s : State, s.pc.toNat + 1 ≤ 0xFFFF →
    ∃ t, exec .sphl s = .next t ∧ t.sp.toNat = s.h.toNat * 256 + s.l.toNat ∧ SameRegsBut [] s t ∧ t.f = s.f ∧
      SameMem s t ∧ Advanced 1 s t) ∧
  (∀ (rp : PairSel) (imm : Word) (s : State), PastTop 3 (.lxi rp imm) s ∧ PastTop 1 .sphl s)

/-- R162 and R163, INX and DCX: the pair or SP plus or minus 1 mod 2^16; no flag changes. -/
def Obligations.InxDcxWrap : Prop :=
  (decode [0x03] = .ok (.inx .bc, []) ∧ decode [0x13] = .ok (.inx .de, []) ∧ decode [0x23] = .ok (.inx .hl, []) ∧
    decode [0x33] = .ok (.inx .sp, []) ∧ decode [0x0B] = .ok (.dcx .bc, []) ∧ decode [0x1B] = .ok (.dcx .de, []) ∧
    decode [0x2B] = .ok (.dcx .hl, []) ∧ decode [0x3B] = .ok (.dcx .sp, [])) ∧
  (∀ (p : PairSel) (s : State), s.pc.toNat + 1 ≤ 0xFFFF →
    (∃ t, exec (.inx p) s = .next t ∧ (t.readSel p).toNat = ((s.readSel p).toNat + 1) % 65536 ∧
      SameRegsBut (destRegs (.inx p)) s t ∧ (p ≠ .sp → t.sp = s.sp) ∧ t.f = s.f ∧ SameMem s t ∧ Advanced 1 s t) ∧
    (∃ t, exec (.dcx p) s = .next t ∧ (t.readSel p).toNat = ((s.readSel p).toNat + 65535) % 65536 ∧
      SameRegsBut (destRegs (.dcx p)) s t ∧ (p ≠ .sp → t.sp = s.sp) ∧ t.f = s.f ∧ SameMem s t ∧ Advanced 1 s t)) ∧
  (∀ (p : PairSel) (s : State), PastTop 1 (.inx p) s ∧ PastTop 1 (.dcx p) s)

/-! ### Port I/O -/

/-- R170 and R172, IN: the hook is given the state and the port; its changes to A to L, F and memory take effect, F is fixed,
then A takes the returned byte, and pc advances by 2. For every answer of the hook (Config.inHook is a free value). The
advance and the hook's presence are checked first, in this order. The port log and the fate of a store outside memory are
the model's choice (notes/assumptions/6.md, 8.md, 12.md). -/
def Obligations.InTakesTheHooksByte : Prop :=
  (∀ port : Byte, decode [0xDB, port] = .ok (.inp port, [])) ∧
  (∀ (port : Byte) (s : State), s.pc.toNat + 2 ≤ 0xFFFF → s.inHook = true →
    ∃ t, exec (.inp port) s = .next t ∧ t.a = (Config.inHook s port).value ∧
      t.b = (Config.inHook s port).effect.b ∧ t.c = (Config.inHook s port).effect.c ∧
      t.d = (Config.inHook s port).effect.d ∧ t.e = (Config.inHook s port).effect.e ∧
      t.h = (Config.inHook s port).effect.h ∧ t.l = (Config.inHook s port).effect.l ∧
      t.f = fix (Config.inHook s port).effect.f ∧
      t.mem = s.mem.hookWrites s.memLen (Config.inHook s port).effect.writes ∧
      t.sp = s.sp ∧ t.pc.toNat = s.pc.toNat + 2 ∧ t.status = s.status ∧ SameParams s t ∧
      t.ports = .read port (Config.inHook s port).value :: s.ports) ∧
  (∀ (port : Byte) (s : State), PastTop 2 (.inp port) s) ∧
  (∀ (port : Byte) (s : State), s.pc.toNat + 2 ≤ 0xFFFF → s.inHook = false →
    exec (.inp port) s = .next (s.faultedWith (.missingPortHandler .inward)))

/-- R171 and R173, OUT: the hook is given the state, the port and A; its changes to A to L, F and memory take effect, F is
fixed, and pc advances by 2. For every effect of the hook (Config.outHook is a free value). The advance and the hook's
presence are checked first, in this order. The port log and the fate of a store outside memory are the model's choice
(notes/assumptions/6.md, 8.md, 12.md). -/
def Obligations.OutGivesTheHookTheAccumulator : Prop :=
  (∀ port : Byte, decode [0xD3, port] = .ok (.out port, [])) ∧
  (∀ (port : Byte) (s : State), s.pc.toNat + 2 ≤ 0xFFFF → s.outHook = true →
    ∃ t, exec (.out port) s = .next t ∧ t.a = (Config.outHook s port s.a).a ∧
      t.b = (Config.outHook s port s.a).b ∧ t.c = (Config.outHook s port s.a).c ∧
      t.d = (Config.outHook s port s.a).d ∧ t.e = (Config.outHook s port s.a).e ∧
      t.h = (Config.outHook s port s.a).h ∧ t.l = (Config.outHook s port s.a).l ∧
      t.f = fix (Config.outHook s port s.a).f ∧
      t.mem = s.mem.hookWrites s.memLen (Config.outHook s port s.a).writes ∧
      t.sp = s.sp ∧ t.pc.toNat = s.pc.toNat + 2 ∧ t.status = s.status ∧ SameParams s t ∧
      t.ports = .write port s.a :: s.ports) ∧
  (∀ (port : Byte) (s : State), PastTop 2 (.out port) s) ∧
  (∀ (port : Byte) (s : State), s.pc.toNat + 2 ≤ 0xFFFF → s.outHook = false →
    exec (.out port) s = .next (s.faultedWith (.missingPortHandler .outward)))

/-- A hook's stores land in order: the last store to an address inside memory is the byte there, and a store outside memory
changes no byte (the model's choice, notes/assumptions/12.md). -/
def Obligations.HookStoresLandInOrder : Prop :=
  ∀ (m : Memory) (memLen : Nat) (earlier : List Host.Cell) (addr : Nat) (v : Byte), m.wf →
    (addr < memLen → (m.hookWrites memLen (earlier ++ [(addr, v)])).read addr = v) ∧
    (∀ other, other ≠ addr →
      (m.hookWrites memLen (earlier ++ [(addr, v)])).read other = (m.hookWrites memLen earlier).read other) ∧
    (memLen ≤ addr → m.hookWrites memLen (earlier ++ [(addr, v)]) = m.hookWrites memLen earlier)

/-- R174: the hooks are registered independently; IN with no input hook and OUT with no output hook raise
MissingPortHandler before a hook would be called, so nothing changes. -/
def Obligations.MissingHookTraps : Prop :=
  ∀ (port : Byte) (s : State), s.pc.toNat + 2 ≤ 0xFFFF →
    (s.inHook = false → exec (.inp port) s = .next (s.faultedWith (.missingPortHandler .inward))) ∧
    (s.outHook = false → exec (.out port) s = .next (s.faultedWith (.missingPortHandler .outward)))

/-! ### Construction -/

/-- Construction at a base below 65536 that fits: zero below the base, the image at it, `L = B + n`, pc = B, SP = 0, Running,
INIT_REGS in the registers and, fixed, in the flags; one that does not fit is refused. That the empty image at base 65536 is
refused too is the model's choice (notes/assumptions/14.md). -/
def Obligations.ConstructionLaysOutMemory : Prop :=
  (∀ (image : List Byte) (base : Nat) (x : Launch), base + image.length ≤ 65536 → base < 65536 →
    ∃ s, State.construct image base x = some s ∧ s.pc.toNat = base ∧ s.sp = 0 ∧ s.memLen = base + image.length ∧
      s.status = .running ∧ s.ports = [] ∧ (∀ addr, addr < base → s.byteAt addr = 0) ∧
      (∀ (k : Nat) (v : Byte), image[k]? = some v → s.byteAt (base + k) = v) ∧
      s.a = x.init.a ∧ s.b = x.init.b ∧ s.c = x.init.c ∧ s.d = x.init.d ∧ s.e = x.init.e ∧ s.h = x.init.h ∧
      s.l = x.init.l ∧ s.f = fix x.init.f ∧ s.window = x.window ∧ s.inHook = x.inHook ∧ s.outHook = x.outHook ∧
      s.Inv) ∧
  (∀ (image : List Byte) (base : Nat) (x : Launch), 65536 < base + image.length →
    State.construct image base x = none) ∧
  (∀ x : Launch, State.construct [] 65536 x = none)
end

