-- ==== Sys2Proof/Laws/Bits.lean ====
section
/-! SUPPORT. The byte-order helpers and the flag bits: what composing, splitting and fixing give back. -/

namespace Sys2Proof

@[simp] theorem lo8_pairOf (hi lo : Byte) : lo8 (pairOf hi lo) = lo := by
  apply BitVec.eq_of_getLsbD_eq
  intro i hi'
  show ((hi ++ lo).extractLsb' 0 8).getLsbD i = lo.getLsbD i
  rw [BitVec.getLsbD_extractLsb', BitVec.getLsbD_append]
  simp [hi']

@[simp] theorem hi8_pairOf (hi lo : Byte) : hi8 (pairOf hi lo) = hi := by
  apply BitVec.eq_of_getLsbD_eq
  intro i hi'
  show ((hi ++ lo).extractLsb' 8 8).getLsbD i = hi.getLsbD i
  rw [BitVec.getLsbD_extractLsb', BitVec.getLsbD_append]
  simp [hi']

@[simp] theorem pairOf_split (w : Word) : pairOf (hi8 w) (lo8 w) = w := by
  apply BitVec.eq_of_getLsbD_eq
  intro i hi'
  simp only [lo8, hi8, pairOf, BitVec.getLsbD_append, BitVec.getLsbD_extractLsb']
  split
  · simp [*]
  · have : i - 8 < 8 := by omega
    simp [this, show 8 + (i - 8) = i by omega]

/-- A composed word as a number. -/
theorem pairOf_toNat (hi lo : Byte) : (pairOf hi lo).toNat = hi.toNat * 256 + lo.toNat := by
  have := lo.isLt
  simp only [pairOf, BitVec.toNat_append]
  rw [Nat.shiftLeft_eq, Nat.mul_comm, ← Nat.two_pow_add_eq_or_of_lt (by omega)]

theorem hi8_toNat (w : Word) : (hi8 w).toNat = w.toNat / 256 := by
  have := w.isLt
  simp [hi8, BitVec.extractLsb'_toNat, Nat.shiftRight_eq_div_pow]
  omega

theorem lo8_toNat (w : Word) : (lo8 w).toNat = w.toNat % 256 := by
  simp [lo8, BitVec.extractLsb'_toNat]

/-- A number that fits is the word made from it. -/
theorem toNat_ofNat_word (n : Nat) (h : n ≤ 0xFFFF) : (BitVec.ofNat 16 n).toNat = n := by
  simp
  omega

namespace Machine

/-- The bits of a fixed byte (spec/10_state.md R27). -/
theorem fix_getLsbD (v : Byte) (i : Nat) :
    (fix v).getLsbD i = (if i = 1 then true else if i = 3 ∨ i = 5 then false else v.getLsbD i) := by
  by_cases hi : i < 8
  · have hcases : i = 0 ∨ i = 1 ∨ i = 2 ∨ i = 3 ∨ i = 4 ∨ i = 5 ∨ i = 6 ∨ i = 7 := by omega
    rcases hcases with h | h | h | h | h | h | h | h <;> subst h <;> simp [fix]
  · have h1 : i ≠ 1 := by omega
    have h3 : ¬ (i = 3 ∨ i = 5) := by omega
    simp [h1, h3, BitVec.getLsbD_of_ge, Nat.le_of_not_lt hi]

@[simp] theorem fix_fix (v : Byte) : fix (fix v) = fix v := by
  apply BitVec.eq_of_getLsbD_eq
  intro i _
  rw [fix_getLsbD, fix_getLsbD]
  split <;> simp_all

/-- One bit replaced, the others kept. -/
theorem putBit_getLsbD (f : Byte) (i j : Nat) (v : Bool) (hi : i < 8) :
    (putBit f i v).getLsbD j = if j = i then v else f.getLsbD j := by
  by_cases hj : j < 8
  · unfold putBit
    by_cases h : j = i
    · subst h
      cases v <;> simp [hj]
    · have hsub : i ≤ j → j - i ≠ 0 := by omega
      cases v <;> simp [h, hj]
      · intro _
        by_cases hlt : j < i
        · exact Or.inl hlt
        · exact Or.inr (hsub (by omega))
      · intro hle h0
        exact absurd h0 (hsub hle)
  · have hne : j ≠ i := by omega
    simp [hne, BitVec.getLsbD_of_ge, Nat.le_of_not_lt hj]

/-- One bit replaced when asked for. -/
theorem putBitIf_getLsbD (want : Bool) (f : Byte) (i j : Nat) (v : Bool) (hi : i < 8) :
    (putBitIf want f i v).getLsbD j = if want = true ∧ j = i then v else f.getLsbD j := by
  cases want <;> simp [putBitIf, putBit_getLsbD, hi]

end Machine
end Sys2Proof
end

