-- ==== Sys2Proof/Laws/State.lean ====
section
/-! SUPPORT. What each update of State does to each field, once. -/

namespace Sys2Proof.Machine

variable (s : State)

/-! `setSp` -/

@[simp] theorem State.setSp_a (w : Word) : (s.setSp w).a = s.a := rfl
@[simp] theorem State.setSp_b (w : Word) : (s.setSp w).b = s.b := rfl
@[simp] theorem State.setSp_c (w : Word) : (s.setSp w).c = s.c := rfl
@[simp] theorem State.setSp_d (w : Word) : (s.setSp w).d = s.d := rfl
@[simp] theorem State.setSp_e (w : Word) : (s.setSp w).e = s.e := rfl
@[simp] theorem State.setSp_h (w : Word) : (s.setSp w).h = s.h := rfl
@[simp] theorem State.setSp_l (w : Word) : (s.setSp w).l = s.l := rfl
@[simp] theorem State.setSp_f (w : Word) : (s.setSp w).f = s.f := rfl
@[simp] theorem State.setSp_sp (w : Word) : (s.setSp w).sp = w := rfl
@[simp] theorem State.setSp_pc (w : Word) : (s.setSp w).pc = s.pc := rfl
@[simp] theorem State.setSp_mem (w : Word) : (s.setSp w).mem = s.mem := rfl
@[simp] theorem State.setSp_status (w : Word) : (s.setSp w).status = s.status := rfl
@[simp] theorem State.setSp_memLen (w : Word) : (s.setSp w).memLen = s.memLen := rfl
@[simp] theorem State.setSp_window (w : Word) : (s.setSp w).window = s.window := rfl
@[simp] theorem State.setSp_inHook (w : Word) : (s.setSp w).inHook = s.inHook := rfl
@[simp] theorem State.setSp_outHook (w : Word) : (s.setSp w).outHook = s.outHook := rfl
@[simp] theorem State.setSp_ports (w : Word) : (s.setSp w).ports = s.ports := rfl

/-! `setPc` -/

@[simp] theorem State.setPc_a (w : Word) : (s.setPc w).a = s.a := rfl
@[simp] theorem State.setPc_b (w : Word) : (s.setPc w).b = s.b := rfl
@[simp] theorem State.setPc_c (w : Word) : (s.setPc w).c = s.c := rfl
@[simp] theorem State.setPc_d (w : Word) : (s.setPc w).d = s.d := rfl
@[simp] theorem State.setPc_e (w : Word) : (s.setPc w).e = s.e := rfl
@[simp] theorem State.setPc_h (w : Word) : (s.setPc w).h = s.h := rfl
@[simp] theorem State.setPc_l (w : Word) : (s.setPc w).l = s.l := rfl
@[simp] theorem State.setPc_f (w : Word) : (s.setPc w).f = s.f := rfl
@[simp] theorem State.setPc_sp (w : Word) : (s.setPc w).sp = s.sp := rfl
@[simp] theorem State.setPc_pc (w : Word) : (s.setPc w).pc = w := rfl
@[simp] theorem State.setPc_mem (w : Word) : (s.setPc w).mem = s.mem := rfl
@[simp] theorem State.setPc_status (w : Word) : (s.setPc w).status = s.status := rfl
@[simp] theorem State.setPc_memLen (w : Word) : (s.setPc w).memLen = s.memLen := rfl
@[simp] theorem State.setPc_window (w : Word) : (s.setPc w).window = s.window := rfl
@[simp] theorem State.setPc_inHook (w : Word) : (s.setPc w).inHook = s.inHook := rfl
@[simp] theorem State.setPc_outHook (w : Word) : (s.setPc w).outHook = s.outHook := rfl
@[simp] theorem State.setPc_ports (w : Word) : (s.setPc w).ports = s.ports := rfl

/-! `setMem` -/

@[simp] theorem State.setMem_a (m : Memory) : (s.setMem m).a = s.a := rfl
@[simp] theorem State.setMem_b (m : Memory) : (s.setMem m).b = s.b := rfl
@[simp] theorem State.setMem_c (m : Memory) : (s.setMem m).c = s.c := rfl
@[simp] theorem State.setMem_d (m : Memory) : (s.setMem m).d = s.d := rfl
@[simp] theorem State.setMem_e (m : Memory) : (s.setMem m).e = s.e := rfl
@[simp] theorem State.setMem_h (m : Memory) : (s.setMem m).h = s.h := rfl
@[simp] theorem State.setMem_l (m : Memory) : (s.setMem m).l = s.l := rfl
@[simp] theorem State.setMem_f (m : Memory) : (s.setMem m).f = s.f := rfl
@[simp] theorem State.setMem_sp (m : Memory) : (s.setMem m).sp = s.sp := rfl
@[simp] theorem State.setMem_pc (m : Memory) : (s.setMem m).pc = s.pc := rfl
@[simp] theorem State.setMem_mem (m : Memory) : (s.setMem m).mem = m := rfl
@[simp] theorem State.setMem_status (m : Memory) : (s.setMem m).status = s.status := rfl
@[simp] theorem State.setMem_memLen (m : Memory) : (s.setMem m).memLen = s.memLen := rfl
@[simp] theorem State.setMem_window (m : Memory) : (s.setMem m).window = s.window := rfl
@[simp] theorem State.setMem_inHook (m : Memory) : (s.setMem m).inHook = s.inHook := rfl
@[simp] theorem State.setMem_outHook (m : Memory) : (s.setMem m).outHook = s.outHook := rfl
@[simp] theorem State.setMem_ports (m : Memory) : (s.setMem m).ports = s.ports := rfl

/-! `setFlags` -/

@[simp] theorem State.setFlags_a (v : Byte) : (s.setFlags v).a = s.a := rfl
@[simp] theorem State.setFlags_b (v : Byte) : (s.setFlags v).b = s.b := rfl
@[simp] theorem State.setFlags_c (v : Byte) : (s.setFlags v).c = s.c := rfl
@[simp] theorem State.setFlags_d (v : Byte) : (s.setFlags v).d = s.d := rfl
@[simp] theorem State.setFlags_e (v : Byte) : (s.setFlags v).e = s.e := rfl
@[simp] theorem State.setFlags_h (v : Byte) : (s.setFlags v).h = s.h := rfl
@[simp] theorem State.setFlags_l (v : Byte) : (s.setFlags v).l = s.l := rfl
@[simp] theorem State.setFlags_f (v : Byte) : (s.setFlags v).f = fix v := rfl
@[simp] theorem State.setFlags_sp (v : Byte) : (s.setFlags v).sp = s.sp := rfl
@[simp] theorem State.setFlags_pc (v : Byte) : (s.setFlags v).pc = s.pc := rfl
@[simp] theorem State.setFlags_mem (v : Byte) : (s.setFlags v).mem = s.mem := rfl
@[simp] theorem State.setFlags_status (v : Byte) : (s.setFlags v).status = s.status := rfl
@[simp] theorem State.setFlags_memLen (v : Byte) : (s.setFlags v).memLen = s.memLen := rfl
@[simp] theorem State.setFlags_window (v : Byte) : (s.setFlags v).window = s.window := rfl
@[simp] theorem State.setFlags_inHook (v : Byte) : (s.setFlags v).inHook = s.inHook := rfl
@[simp] theorem State.setFlags_outHook (v : Byte) : (s.setFlags v).outHook = s.outHook := rfl
@[simp] theorem State.setFlags_ports (v : Byte) : (s.setFlags v).ports = s.ports := rfl

/-! `updateFlags` -/

@[simp] theorem State.updateFlags_a (res : Byte) (carry : Bool) (which : FlagSet) : (s.updateFlags res carry which).a = s.a := rfl
@[simp] theorem State.updateFlags_b (res : Byte) (carry : Bool) (which : FlagSet) : (s.updateFlags res carry which).b = s.b := rfl
@[simp] theorem State.updateFlags_c (res : Byte) (carry : Bool) (which : FlagSet) : (s.updateFlags res carry which).c = s.c := rfl
@[simp] theorem State.updateFlags_d (res : Byte) (carry : Bool) (which : FlagSet) : (s.updateFlags res carry which).d = s.d := rfl
@[simp] theorem State.updateFlags_e (res : Byte) (carry : Bool) (which : FlagSet) : (s.updateFlags res carry which).e = s.e := rfl
@[simp] theorem State.updateFlags_h (res : Byte) (carry : Bool) (which : FlagSet) : (s.updateFlags res carry which).h = s.h := rfl
@[simp] theorem State.updateFlags_l (res : Byte) (carry : Bool) (which : FlagSet) : (s.updateFlags res carry which).l = s.l := rfl
@[simp] theorem State.updateFlags_f (res : Byte) (carry : Bool) (which : FlagSet) : (s.updateFlags res carry which).f = fix (Machine.updateFlags s.f res carry which) := rfl
@[simp] theorem State.updateFlags_sp (res : Byte) (carry : Bool) (which : FlagSet) : (s.updateFlags res carry which).sp = s.sp := rfl
@[simp] theorem State.updateFlags_pc (res : Byte) (carry : Bool) (which : FlagSet) : (s.updateFlags res carry which).pc = s.pc := rfl
@[simp] theorem State.updateFlags_mem (res : Byte) (carry : Bool) (which : FlagSet) : (s.updateFlags res carry which).mem = s.mem := rfl
@[simp] theorem State.updateFlags_status (res : Byte) (carry : Bool) (which : FlagSet) : (s.updateFlags res carry which).status = s.status := rfl
@[simp] theorem State.updateFlags_memLen (res : Byte) (carry : Bool) (which : FlagSet) : (s.updateFlags res carry which).memLen = s.memLen := rfl
@[simp] theorem State.updateFlags_window (res : Byte) (carry : Bool) (which : FlagSet) : (s.updateFlags res carry which).window = s.window := rfl
@[simp] theorem State.updateFlags_inHook (res : Byte) (carry : Bool) (which : FlagSet) : (s.updateFlags res carry which).inHook = s.inHook := rfl
@[simp] theorem State.updateFlags_outHook (res : Byte) (carry : Bool) (which : FlagSet) : (s.updateFlags res carry which).outHook = s.outHook := rfl
@[simp] theorem State.updateFlags_ports (res : Byte) (carry : Bool) (which : FlagSet) : (s.updateFlags res carry which).ports = s.ports := rfl

/-! `logPort` -/

@[simp] theorem State.logPort_a (ev : PortEvent) : (s.logPort ev).a = s.a := rfl
@[simp] theorem State.logPort_b (ev : PortEvent) : (s.logPort ev).b = s.b := rfl
@[simp] theorem State.logPort_c (ev : PortEvent) : (s.logPort ev).c = s.c := rfl
@[simp] theorem State.logPort_d (ev : PortEvent) : (s.logPort ev).d = s.d := rfl
@[simp] theorem State.logPort_e (ev : PortEvent) : (s.logPort ev).e = s.e := rfl
@[simp] theorem State.logPort_h (ev : PortEvent) : (s.logPort ev).h = s.h := rfl
@[simp] theorem State.logPort_l (ev : PortEvent) : (s.logPort ev).l = s.l := rfl
@[simp] theorem State.logPort_f (ev : PortEvent) : (s.logPort ev).f = s.f := rfl
@[simp] theorem State.logPort_sp (ev : PortEvent) : (s.logPort ev).sp = s.sp := rfl
@[simp] theorem State.logPort_pc (ev : PortEvent) : (s.logPort ev).pc = s.pc := rfl
@[simp] theorem State.logPort_mem (ev : PortEvent) : (s.logPort ev).mem = s.mem := rfl
@[simp] theorem State.logPort_status (ev : PortEvent) : (s.logPort ev).status = s.status := rfl
@[simp] theorem State.logPort_memLen (ev : PortEvent) : (s.logPort ev).memLen = s.memLen := rfl
@[simp] theorem State.logPort_window (ev : PortEvent) : (s.logPort ev).window = s.window := rfl
@[simp] theorem State.logPort_inHook (ev : PortEvent) : (s.logPort ev).inHook = s.inHook := rfl
@[simp] theorem State.logPort_outHook (ev : PortEvent) : (s.logPort ev).outHook = s.outHook := rfl
@[simp] theorem State.logPort_ports (ev : PortEvent) : (s.logPort ev).ports = ev :: s.ports := rfl

/-! `applyHook` -/

@[simp] theorem State.applyHook_a (x : HookEffect) : (s.applyHook x).a = x.a := rfl
@[simp] theorem State.applyHook_b (x : HookEffect) : (s.applyHook x).b = x.b := rfl
@[simp] theorem State.applyHook_c (x : HookEffect) : (s.applyHook x).c = x.c := rfl
@[simp] theorem State.applyHook_d (x : HookEffect) : (s.applyHook x).d = x.d := rfl
@[simp] theorem State.applyHook_e (x : HookEffect) : (s.applyHook x).e = x.e := rfl
@[simp] theorem State.applyHook_h (x : HookEffect) : (s.applyHook x).h = x.h := rfl
@[simp] theorem State.applyHook_l (x : HookEffect) : (s.applyHook x).l = x.l := rfl
@[simp] theorem State.applyHook_f (x : HookEffect) : (s.applyHook x).f = fix x.f := rfl
@[simp] theorem State.applyHook_sp (x : HookEffect) : (s.applyHook x).sp = s.sp := rfl
@[simp] theorem State.applyHook_pc (x : HookEffect) : (s.applyHook x).pc = s.pc := rfl
@[simp] theorem State.applyHook_mem (x : HookEffect) : (s.applyHook x).mem = s.mem.hookWrites s.memLen x.writes := rfl
@[simp] theorem State.applyHook_status (x : HookEffect) : (s.applyHook x).status = s.status := rfl
@[simp] theorem State.applyHook_memLen (x : HookEffect) : (s.applyHook x).memLen = s.memLen := rfl
@[simp] theorem State.applyHook_window (x : HookEffect) : (s.applyHook x).window = s.window := rfl
@[simp] theorem State.applyHook_inHook (x : HookEffect) : (s.applyHook x).inHook = s.inHook := rfl
@[simp] theorem State.applyHook_outHook (x : HookEffect) : (s.applyHook x).outHook = s.outHook := rfl
@[simp] theorem State.applyHook_ports (x : HookEffect) : (s.applyHook x).ports = s.ports := rfl

/-! `setReg`, `setPair`, `writeSel`, `setPsw` -/

@[simp] theorem State.setReg_f (r : Reg) (v : Byte) : (s.setReg r v).f = s.f := by cases r <;> rfl
@[simp] theorem State.setReg_sp (r : Reg) (v : Byte) : (s.setReg r v).sp = s.sp := by cases r <;> rfl
@[simp] theorem State.setReg_pc (r : Reg) (v : Byte) : (s.setReg r v).pc = s.pc := by cases r <;> rfl
@[simp] theorem State.setReg_mem (r : Reg) (v : Byte) : (s.setReg r v).mem = s.mem := by cases r <;> rfl
@[simp] theorem State.setReg_status (r : Reg) (v : Byte) : (s.setReg r v).status = s.status := by cases r <;> rfl
@[simp] theorem State.setReg_memLen (r : Reg) (v : Byte) : (s.setReg r v).memLen = s.memLen := by cases r <;> rfl
@[simp] theorem State.setReg_window (r : Reg) (v : Byte) : (s.setReg r v).window = s.window := by cases r <;> rfl
@[simp] theorem State.setReg_inHook (r : Reg) (v : Byte) : (s.setReg r v).inHook = s.inHook := by cases r <;> rfl
@[simp] theorem State.setReg_outHook (r : Reg) (v : Byte) : (s.setReg r v).outHook = s.outHook := by cases r <;> rfl
@[simp] theorem State.setReg_ports (r : Reg) (v : Byte) : (s.setReg r v).ports = s.ports := by cases r <;> rfl

theorem State.reg_setReg (r q : Reg) (v : Byte) : (s.setReg r v).reg q = if q = r then v else s.reg q := by
  cases r <;> cases q <;> rfl

@[simp] theorem State.reg_setReg_same (r : Reg) (v : Byte) : (s.setReg r v).reg r = v := by
  cases r <;> rfl

@[simp] theorem State.reg_setReg_other (r q : Reg) (v : Byte) (h : q ≠ r) : (s.setReg r v).reg q = s.reg q := by
  simp [State.reg_setReg, h]

@[simp] theorem State.setPair_f (p : Pair) (w : Word) : (s.setPair p w).f = s.f := by cases p <;> rfl
@[simp] theorem State.setPair_sp (p : Pair) (w : Word) : (s.setPair p w).sp = s.sp := by cases p <;> rfl
@[simp] theorem State.setPair_pc (p : Pair) (w : Word) : (s.setPair p w).pc = s.pc := by cases p <;> rfl
@[simp] theorem State.setPair_mem (p : Pair) (w : Word) : (s.setPair p w).mem = s.mem := by cases p <;> rfl
@[simp] theorem State.setPair_status (p : Pair) (w : Word) : (s.setPair p w).status = s.status := by cases p <;> rfl
@[simp] theorem State.setPair_memLen (p : Pair) (w : Word) : (s.setPair p w).memLen = s.memLen := by cases p <;> rfl
@[simp] theorem State.setPair_window (p : Pair) (w : Word) : (s.setPair p w).window = s.window := by cases p <;> rfl
@[simp] theorem State.setPair_inHook (p : Pair) (w : Word) : (s.setPair p w).inHook = s.inHook := by cases p <;> rfl
@[simp] theorem State.setPair_outHook (p : Pair) (w : Word) : (s.setPair p w).outHook = s.outHook := by cases p <;> rfl
@[simp] theorem State.setPair_ports (p : Pair) (w : Word) : (s.setPair p w).ports = s.ports := by cases p <;> rfl

@[simp] theorem State.writeSel_f (p : PairSel) (w : Word) : (s.writeSel p w).f = s.f := by cases p <;> rfl
@[simp] theorem State.writeSel_pc (p : PairSel) (w : Word) : (s.writeSel p w).pc = s.pc := by cases p <;> rfl
@[simp] theorem State.writeSel_mem (p : PairSel) (w : Word) : (s.writeSel p w).mem = s.mem := by cases p <;> rfl
@[simp] theorem State.writeSel_status (p : PairSel) (w : Word) : (s.writeSel p w).status = s.status := by cases p <;> rfl
@[simp] theorem State.writeSel_memLen (p : PairSel) (w : Word) : (s.writeSel p w).memLen = s.memLen := by cases p <;> rfl
@[simp] theorem State.writeSel_window (p : PairSel) (w : Word) : (s.writeSel p w).window = s.window := by cases p <;> rfl
@[simp] theorem State.writeSel_inHook (p : PairSel) (w : Word) : (s.writeSel p w).inHook = s.inHook := by cases p <;> rfl
@[simp] theorem State.writeSel_outHook (p : PairSel) (w : Word) : (s.writeSel p w).outHook = s.outHook := by cases p <;> rfl
@[simp] theorem State.writeSel_ports (p : PairSel) (w : Word) : (s.writeSel p w).ports = s.ports := by cases p <;> rfl

@[simp] theorem State.setPsw_b (w : Word) : (s.setPsw w).b = s.b := rfl
@[simp] theorem State.setPsw_c (w : Word) : (s.setPsw w).c = s.c := rfl
@[simp] theorem State.setPsw_d (w : Word) : (s.setPsw w).d = s.d := rfl
@[simp] theorem State.setPsw_e (w : Word) : (s.setPsw w).e = s.e := rfl
@[simp] theorem State.setPsw_h (w : Word) : (s.setPsw w).h = s.h := rfl
@[simp] theorem State.setPsw_l (w : Word) : (s.setPsw w).l = s.l := rfl
@[simp] theorem State.setPsw_sp (w : Word) : (s.setPsw w).sp = s.sp := rfl
@[simp] theorem State.setPsw_pc (w : Word) : (s.setPsw w).pc = s.pc := rfl
@[simp] theorem State.setPsw_mem (w : Word) : (s.setPsw w).mem = s.mem := rfl
@[simp] theorem State.setPsw_status (w : Word) : (s.setPsw w).status = s.status := rfl
@[simp] theorem State.setPsw_memLen (w : Word) : (s.setPsw w).memLen = s.memLen := rfl
@[simp] theorem State.setPsw_window (w : Word) : (s.setPsw w).window = s.window := rfl
@[simp] theorem State.setPsw_inHook (w : Word) : (s.setPsw w).inHook = s.inHook := rfl
@[simp] theorem State.setPsw_outHook (w : Word) : (s.setPsw w).outHook = s.outHook := rfl
@[simp] theorem State.setPsw_ports (w : Word) : (s.setPsw w).ports = s.ports := rfl
@[simp] theorem State.setPsw_a (w : Word) : (s.setPsw w).a = lo8 w := rfl
@[simp] theorem State.setPsw_f (w : Word) : (s.setPsw w).f = fix (hi8 w) := rfl

/-! A register reads as before after every update that is not of a register. -/

@[simp] theorem State.reg_setSp (w : Word) (q : Reg) : (s.setSp w).reg q = s.reg q := by cases q <;> rfl
@[simp] theorem State.reg_setPc (w : Word) (q : Reg) : (s.setPc w).reg q = s.reg q := by cases q <;> rfl
@[simp] theorem State.reg_setMem (m : Memory) (q : Reg) : (s.setMem m).reg q = s.reg q := by cases q <;> rfl
@[simp] theorem State.reg_setFlags (v : Byte) (q : Reg) : (s.setFlags v).reg q = s.reg q := by cases q <;> rfl
@[simp] theorem State.reg_updateFlags (res : Byte) (carry : Bool) (which : FlagSet) (q : Reg) :
    (s.updateFlags res carry which).reg q = s.reg q := by cases q <;> rfl
@[simp] theorem State.reg_logPort (ev : PortEvent) (q : Reg) : (s.logPort ev).reg q = s.reg q := by cases q <;> rfl

@[simp] theorem State.pair_setSp (w : Word) (p : Pair) : (s.setSp w).pair p = s.pair p := by simp [State.pair]
@[simp] theorem State.pair_setPc (w : Word) (p : Pair) : (s.setPc w).pair p = s.pair p := by simp [State.pair]
@[simp] theorem State.pair_setMem (m : Memory) (p : Pair) : (s.setMem m).pair p = s.pair p := by simp [State.pair]

end Sys2Proof.Machine
end

