-- ==== Sys2Proof/Laws/Memory.lean ====
section
/-! SUPPORT. Memory: reading after writing, and that every memory operation keeps the canonical form and the bound. -/

namespace Sys2Proof.Machine

/-- Every listed address lies below `n`. -/
abbrev Memory.below (m : Memory) (n : Nat) : Prop := ∀ cell ∈ m, cell.1 < n

/-- An address below every listed one is not listed. -/
theorem Memory.read_of_lt (m : Memory) (addr : Nat) (h : ∀ cell ∈ m, addr < cell.1) :
    m.read addr = Config.unlistedByte := by
  induction m with
  | nil => rfl
  | cons cell rest ih =>
    obtain ⟨k, v⟩ := cell
    have hk : addr < k := h (k, v) (by simp)
    have hne : k ≠ addr := by omega
    simp only [Memory.read, hne, if_false]
    exact ih fun cell hc => h cell (by simp [hc])

/-- A read after a write: the byte written at that address, the old byte at every other one. -/
theorem Memory.read_write (m : Memory) (hm : m.wf) (addr at' : Nat) (v : Byte) :
    (m.write addr v).read at' = if at' = addr then v else m.read at' := by
  induction m with
  | nil =>
    rcases eq_or_ne at' addr with ha | ha
    · by_cases hv : v = Config.unlistedByte <;> simp [Memory.write, Memory.read, hv, ha]
    · by_cases hv : v = Config.unlistedByte <;> simp [Memory.write, Memory.read, hv, ha, ha.symm]
  | cons cell rest ih =>
    obtain ⟨k, old⟩ := cell
    obtain ⟨hp, hn⟩ := hm
    rw [List.pairwise_cons] at hp
    have hrest : Memory.wf rest := ⟨hp.2, fun cell hc => hn cell (by simp [hc])⟩
    have hlow : ∀ x : Nat, x ≤ k → Memory.read rest x = Config.unlistedByte := fun x hx =>
      Memory.read_of_lt rest x fun cell hc => by
        have hkc : k < cell.1 := hp.1 cell hc
        omega
    unfold Memory.write
    split
    · rename_i hlt
      split
      · rename_i hv
        by_cases ha : at' = addr
        · subst ha
          have hne : k ≠ at' := by omega
          simp [Memory.read, hne, hlow at' (by omega), hv]
        · simp [ha]
      · by_cases ha : at' = addr
        · simp [Memory.read, ha]
        · simp [Memory.read, ha, Ne.symm ha]
    · split
      · rename_i hge heq
        subst heq
        split
        · rename_i hv
          by_cases ha : at' = addr
          · subst ha
            simp [hlow at' (by omega), hv]
          · simp [Memory.read, ha, Ne.symm ha]
        · by_cases ha : at' = addr
          · simp [Memory.read, ha]
          · simp [Memory.read, ha, Ne.symm ha]
      · rename_i hge hne
        have hne' : k ≠ addr := fun h => hne h.symm
        by_cases hk : k = at'
        · subst hk
          simp [Memory.read, hne']
        · simp [Memory.read, hk, ih hrest]

/-- The cells of a written memory are the cell written and the old cells. -/
theorem Memory.mem_write (m : Memory) (addr : Nat) (v : Byte) (cell : Host.Cell) (h : cell ∈ m.write addr v) :
    (cell = (addr, v) ∧ v ≠ Config.unlistedByte) ∨ cell ∈ m := by
  induction m with
  | nil =>
    by_cases hv : v = Config.unlistedByte <;> simp_all [Memory.write]
  | cons c rest ih =>
    obtain ⟨k, old⟩ := c
    unfold Memory.write at h
    split at h
    · split at h
      · exact Or.inr h
      · rename_i hv
        rcases List.mem_cons.1 h with h | h
        · exact Or.inl ⟨h, hv⟩
        · exact Or.inr h
    · split at h
      · split at h
        · exact Or.inr (by simp [h])
        · rename_i hv
          rcases List.mem_cons.1 h with h | h
          · exact Or.inl ⟨h, hv⟩
          · exact Or.inr (by simp [h])
      · rcases List.mem_cons.1 h with h | h
        · exact Or.inr (by simp [h])
        · rcases ih h with h | h
          · exact Or.inl h
          · exact Or.inr (by simp [h])

/-- A write keeps the canonical form. -/
theorem Memory.write_wf (m : Memory) (hm : m.wf) (addr : Nat) (v : Byte) : (m.write addr v).wf := by
  refine ⟨?_, fun cell hc => ?_⟩
  · induction m with
    | nil => by_cases hv : v = Config.unlistedByte <;> simp [Memory.write, hv]
    | cons c rest ih =>
      obtain ⟨k, old⟩ := c
      obtain ⟨hp, hn⟩ := hm
      have hp' := hp
      rw [List.pairwise_cons] at hp
      have hrest : Memory.wf rest := ⟨hp.2, fun cell hc => hn cell (by simp [hc])⟩
      unfold Memory.write
      split
      · rename_i hlt
        split
        · exact hp'
        · refine List.pairwise_cons.2 ⟨fun cell hc => ?_, hp'⟩
          rcases List.mem_cons.1 hc with hc | hc
          · subst hc; exact hlt
          · exact Nat.lt_trans hlt (hp.1 cell hc)
      · split
        · rename_i hge heq
          split
          · exact hp.2
          · exact List.pairwise_cons.2 ⟨fun cell hc => by rw [heq]; exact hp.1 cell hc, hp.2⟩
        · rename_i hge hne
          refine List.pairwise_cons.2 ⟨fun cell hc => ?_, ih hrest⟩
          rcases Memory.mem_write rest addr v cell hc with ⟨hc, _⟩ | hc
          · subst hc
            show k < addr
            omega
          · exact hp.1 cell hc
  · rcases Memory.mem_write m addr v cell hc with ⟨hc, hv⟩ | hc
    · subst hc; exact hv
    · exact hm.2 cell hc

/-- A write below the bound keeps the bound. -/
theorem Memory.write_below (m : Memory) (n addr : Nat) (v : Byte) (hm : m.below n) (ha : addr < n) :
    (m.write addr v).below n := by
  intro cell hc
  rcases Memory.mem_write m addr v cell hc with ⟨hc, _⟩ | hc
  · subst hc; exact ha
  · exact hm cell hc

/-- A word written, read back one byte at a time. -/
theorem Memory.read_writeWord (m : Memory) (hm : m.wf) (addr at' : Nat) (w : Word) :
    (m.writeWord addr w).read at' =
      if at' = addr + 1 then hi8 w else if at' = addr then lo8 w else m.read at' := by
  unfold Memory.writeWord
  rw [Memory.read_write _ (Memory.write_wf m hm _ _), Memory.read_write m hm]

theorem Memory.writeWord_wf (m : Memory) (hm : m.wf) (addr : Nat) (w : Word) : (m.writeWord addr w).wf :=
  Memory.write_wf _ (Memory.write_wf m hm _ _) _ _

theorem Memory.writeWord_below (m : Memory) (n addr : Nat) (w : Word) (hm : m.below n) (ha : addr + 1 < n) :
    (m.writeWord addr w).below n :=
  Memory.write_below _ n _ _ (Memory.write_below m n _ _ hm (by omega)) ha

/-- A load keeps the canonical form. -/
theorem Memory.load_wf (bytes : List Byte) : ∀ (m : Memory) (base : Nat), m.wf → (m.load base bytes).wf := by
  induction bytes with
  | nil => exact fun m base hm => hm
  | cons v rest ih => exact fun m base hm => ih _ _ (Memory.write_wf m hm _ _)

/-- A load keeps a bound the bytes stay below. -/
theorem Memory.load_below (bytes : List Byte) : ∀ (m : Memory) (base n : Nat), m.below n → base + bytes.length ≤ n →
    (m.load base bytes).below n := by
  induction bytes with
  | nil => exact fun m base n hm _ => hm
  | cons v rest ih =>
    intro m base n hm hb
    simp only [List.length_cons] at hb
    exact ih _ _ n (Memory.write_below m n _ _ hm (by omega)) (by omega)

/-- A hook's stores keep the canonical form. -/
theorem Memory.hookWrites_wf (n : Nat) (writes : List Host.Cell) : ∀ m : Memory, m.wf → (m.hookWrites n writes).wf := by
  induction writes with
  | nil => exact fun m hm => hm
  | cons c rest ih =>
    intro m hm
    obtain ⟨addr, v⟩ := c
    unfold Memory.hookWrites
    split
    · exact ih _ (Memory.write_wf m hm _ _)
    · exact ih _ hm

/-- A hook's stores stay below the memory size. -/
theorem Memory.hookWrites_below (n : Nat) (writes : List Host.Cell) : ∀ m : Memory, m.below n →
    (m.hookWrites n writes).below n := by
  induction writes with
  | nil => exact fun m hm => hm
  | cons c rest ih =>
    intro m hm
    obtain ⟨addr, v⟩ := c
    unfold Memory.hookWrites
    split
    · exact ih _ (Memory.write_below m n _ _ hm (by assumption))
    · exact ih _ hm

/-- A store leaves every other address, whatever the form of the memory. -/
theorem Memory.read_write_ne (m : Memory) (addr other : Nat) (v : Byte) (h : other ≠ addr) :
    (m.write addr v).read other = m.read other := by
  have hne : addr ≠ other := fun e => h e.symm
  induction m with
  | nil => by_cases hv : v = Config.unlistedByte <;> simp [Memory.write, Memory.read, hv, hne]
  | cons c rest ih =>
    obtain ⟨k, old⟩ := c
    unfold Memory.write
    split
    · split <;> simp [Memory.read, hne]
    · split
      · split <;> simp_all [Memory.read]
      · simp [Memory.read, ih]

/-- A word's store leaves every address but its two. -/
theorem Memory.read_writeWord_ne (m : Memory) (addr other : Nat) (w : Word) (h : other ≠ addr)
    (h' : other ≠ addr + 1) : (m.writeWord addr w).read other = m.read other :=
  (Memory.read_write_ne _ _ _ _ h').trans (Memory.read_write_ne _ _ _ _ h)

/-- A hook's stores one list after another. -/
theorem Memory.hookWrites_append (n : Nat) (first second : List Host.Cell) :
    ∀ m : Memory, m.hookWrites n (first ++ second) = (m.hookWrites n first).hookWrites n second := by
  induction first with
  | nil => exact fun _ => rfl
  | cons _ _ ih => exact fun _ => ih _

/-- A hook's stores leave every address outside `[0, L)`. -/
theorem Memory.read_hookWrites_outside (n : Nat) (writes : List Host.Cell) :
    ∀ (m : Memory) (addr : Nat), n ≤ addr → (m.hookWrites n writes).read addr = m.read addr := by
  induction writes with
  | nil => exact fun _ _ _ => rfl
  | cons c rest ih =>
    intro m addr h
    obtain ⟨k, v⟩ := c
    unfold Memory.hookWrites
    rw [ih _ _ h]
    split
    · exact Memory.read_write_ne _ _ _ _ (by omega)
    · rfl

/-- The byte at an address after a load: the image's where it lies, else the byte before. -/
theorem Memory.read_load (bytes : List Byte) : ∀ (m : Memory) (base : Nat), m.wf → ∀ addr,
    (m.load base bytes).read addr =
      if addr < base then m.read addr else (bytes[addr - base]?).getD (m.read addr) := by
  induction bytes with
  | nil => intro m base _ addr; simp [Memory.load]
  | cons v rest ih =>
    intro m base hm addr
    show ((m.write base v).load (base + 1) rest).read addr = _
    rw [ih _ _ (Memory.write_wf m hm _ _), Memory.read_write m hm]
    by_cases h1 : addr < base
    · simp [h1, show addr < base + 1 by omega, show addr ≠ base by omega]
    · by_cases h2 : addr = base
      · subst h2; simp
      · rw [if_neg (by omega), if_neg h2, if_neg h1, show addr - base = (addr - (base + 1)) + 1 by omega]
        simp

/-- The memory of the state after reset has the canonical form. -/
theorem State.reset_mem_wf : State.reset.mem.wf := by decide

end Sys2Proof.Machine
end

