-- ==== Sys2Proof/Laws/Ops.lean ====
section
/-! SUPPORT. What each shared operation answers, said once: cite these and do not unfold the operation. -/

namespace Sys2Proof.Machine

theorem check_of (cond : Prop) [Decidable cond] (e : Error) (h : cond) : check cond e = .ok () := by
  simp [check, h]

theorem check_of_not (cond : Prop) [Decidable cond] (e : Error) (h : ¬ cond) : check cond e = .error e := by
  simp [check, h]

/-- A computation that answers went through its first part. -/
theorem except_bind_ok {α β : Type} (x : Except Error α) (f : α → Except Error β) (b : β)
    (h : (x >>= f) = .ok b) : ∃ a, x = .ok a ∧ f a = .ok b := by
  cases x with
  | error e => cases h
  | ok a => exact ⟨a, rfl, h⟩

/-! Bounds and single bytes. -/

theorem State.inBounds_of_lt (s : State) (addr : Nat) (h : addr < s.memLen) : s.inBounds addr = .ok () :=
  check_of _ _ h

theorem State.inBounds_of_ge (s : State) (addr : Nat) (h : s.memLen ≤ addr) :
    s.inBounds addr = .error (.outOfBounds addr) :=
  check_of_not _ _ (by omega)

theorem State.memRead_eq (s : State) (addr : Nat) :
    s.memRead addr = if addr < s.memLen then .ok (s.mem.read addr) else .error (.outOfBounds addr) := by
  unfold State.memRead
  split
  · rw [State.inBounds_of_lt s addr (by assumption)]; rfl
  · rw [State.inBounds_of_ge s addr (by omega)]; rfl

theorem State.memWrite_eq (s : State) (addr : Nat) (v : Byte) :
    s.memWrite addr v =
      if addr < s.memLen then .ok (s.setMem (s.mem.write addr v)) else .error (.outOfBounds addr) := by
  unfold State.memWrite
  split
  · rw [State.inBounds_of_lt s addr (by assumption)]; rfl
  · rw [State.inBounds_of_ge s addr (by omega)]; rfl

/-- The error of a word access: the first of its two addresses that is out of bounds. -/
theorem State.memReadWord_eq (s : State) (addr : Nat) :
    s.memReadWord addr =
      if addr + 1 < s.memLen then .ok (pairOf (s.mem.read (addr + 1)) (s.mem.read addr))
      else if addr < s.memLen then .error (.outOfBounds (addr + 1 : Nat))
      else .error (.outOfBounds addr) := by
  unfold State.memReadWord
  by_cases h1 : addr < s.memLen
  · rw [State.inBounds_of_lt s addr h1]
    by_cases h2 : addr + 1 < s.memLen
    · rw [State.inBounds_of_lt s _ h2, if_pos h2]; rfl
    · rw [State.inBounds_of_ge s _ (by omega), if_neg h2, if_pos h1]; rfl
  · rw [State.inBounds_of_ge s addr (by omega), if_neg (by omega), if_neg h1]; rfl

theorem State.memWriteWord_eq (s : State) (addr : Nat) (w : Word) :
    s.memWriteWord addr w =
      if addr + 1 < s.memLen then .ok (s.setMem (s.mem.writeWord addr w))
      else if addr < s.memLen then .error (.outOfBounds (addr + 1 : Nat))
      else .error (.outOfBounds addr) := by
  unfold State.memWriteWord
  by_cases h1 : addr < s.memLen
  · rw [State.inBounds_of_lt s addr h1]
    by_cases h2 : addr + 1 < s.memLen
    · rw [State.inBounds_of_lt s _ h2, if_pos h2]; rfl
    · rw [State.inBounds_of_ge s _ (by omega), if_neg h2, if_pos h1]; rfl
  · rw [State.inBounds_of_ge s addr (by omega), if_neg (by omega), if_neg h1]; rfl

/-! What an access answers when it answers. -/

theorem State.memRead_ok (s : State) (addr : Nat) (v : Byte) (h : s.memRead addr = .ok v) :
    addr < s.memLen ∧ v = s.mem.read addr := by
  rw [State.memRead_eq] at h
  split at h
  · exact ⟨by assumption, (Except.ok.inj h).symm⟩
  · cases h

theorem State.memWrite_ok (s t : State) (addr : Nat) (v : Byte) (h : s.memWrite addr v = .ok t) :
    addr < s.memLen ∧ t = s.setMem (s.mem.write addr v) := by
  rw [State.memWrite_eq] at h
  split at h
  · exact ⟨by assumption, (Except.ok.inj h).symm⟩
  · cases h

theorem State.memReadWord_ok (s : State) (addr : Nat) (w : Word) (h : s.memReadWord addr = .ok w) :
    addr + 1 < s.memLen ∧ w = pairOf (s.mem.read (addr + 1)) (s.mem.read addr) := by
  rw [State.memReadWord_eq] at h
  split at h
  · exact ⟨by assumption, (Except.ok.inj h).symm⟩
  · split at h <;> cases h

theorem State.memWriteWord_ok (s t : State) (addr : Nat) (w : Word) (h : s.memWriteWord addr w = .ok t) :
    addr + 1 < s.memLen ∧ t = s.setMem (s.mem.writeWord addr w) := by
  rw [State.memWriteWord_eq] at h
  split at h
  · exact ⟨by assumption, (Except.ok.inj h).symm⟩
  · split at h <;> cases h

/-! The bytes of a state after a store. -/

theorem State.byteAt_write (s : State) (hm : s.mem.wf) (addr : Nat) (v : Byte) :
    (s.setMem (s.mem.write addr v)).byteAt addr = v :=
  (Memory.read_write s.mem hm addr addr v).trans (if_pos rfl)

theorem State.byteAt_writeWord (s : State) (hm : s.mem.wf) (addr : Nat) (w : Word) :
    (s.setMem (s.mem.writeWord addr w)).byteAt addr = lo8 w ∧
      (s.setMem (s.mem.writeWord addr w)).byteAt (addr + 1) = hi8 w := by
  show (s.mem.writeWord addr w).read addr = _ ∧ (s.mem.writeWord addr w).read (addr + 1) = _
  rw [Memory.read_writeWord _ hm, Memory.read_writeWord _ hm]
  simp

theorem State.sameMemBut_write (s : State) (addr : Nat) (v : Byte) :
    SameMemBut addr 1 s (s.setMem (s.mem.write addr v)) :=
  fun other h => Memory.read_write_ne s.mem addr other v (by omega)

theorem State.sameMemBut_writeWord (s : State) (addr : Nat) (w : Word) :
    SameMemBut addr 2 s (s.setMem (s.mem.writeWord addr w)) :=
  fun other h => Memory.read_writeWord_ne s.mem addr other w (by omega) (by omega)

/-- A pair write reaches its two registers and no other. -/
theorem State.setPair_regs (s : State) (p : Pair) (w : Word) :
    (s.setPair p w).reg (pairHigh p) = hi8 w ∧ (s.setPair p w).reg (pairLow p) = lo8 w ∧
      SameRegsBut [pairHigh p, pairLow p] s (s.setPair p w) := by
  cases p <;> refine ⟨rfl, rfl, ?_⟩ <;> intro r hr <;> cases r <;>
    first | rfl | simp [pairHigh, pairLow] at hr

/-! The program counter and the stack. -/

theorem State.nextPc_eq (s : State) (len : Nat) :
    s.nextPc len =
      if s.pc.toNat + len ≤ 0xFFFF then .ok (BitVec.ofNat 16 (s.pc.toNat + len))
      else .error (.outOfBounds (s.pc.toNat + len : Nat)) := by
  unfold State.nextPc
  split
  · rw [check_of _ _ (by assumption)]; rfl
  · rw [check_of_not _ _ (by assumption)]; rfl

/-- A push that passes its three checks. -/
theorem State.push_of_room (s : State) (w : Word) (h1 : s.sp.toNat + 1 < s.memLen) (h2 : s.sp.toNat + 2 ≤ 0xFFFF) :
    s.push w =
      .ok ((s.setMem (s.mem.writeWord s.sp.toNat w)).setSp (BitVec.ofNat 16 (s.sp.toNat + 2))) := by
  unfold State.push
  rw [State.inBounds_of_lt s _ (by omega), State.inBounds_of_lt s _ h1, check_of _ _ h2, State.memWriteWord_eq,
    if_pos h1]
  rfl

/-- A push answers a state only when it passes its three checks. -/
theorem State.push_ok (s : State) (w : Word) (t : State) (h : s.push w = .ok t) :
    s.sp.toNat + 1 < s.memLen ∧ s.sp.toNat + 2 ≤ 0xFFFF ∧
      t = (s.setMem (s.mem.writeWord s.sp.toNat w)).setSp (BitVec.ofNat 16 (s.sp.toNat + 2)) := by
  by_cases h0 : s.sp.toNat < s.memLen
  · by_cases h1 : s.sp.toNat + 1 < s.memLen
    · by_cases h2 : s.sp.toNat + 2 ≤ 0xFFFF
      · rw [State.push_of_room s w h1 h2] at h
        exact ⟨h1, h2, (Except.ok.inj h).symm⟩
      · unfold State.push at h
        rw [State.inBounds_of_lt s _ h0, State.inBounds_of_lt s _ h1, check_of_not _ _ h2] at h
        cases h
    · unfold State.push at h
      rw [State.inBounds_of_lt s _ h0, State.inBounds_of_ge s _ (by omega)] at h
      cases h
  · unfold State.push at h
    rw [State.inBounds_of_ge s _ (by omega)] at h
    cases h

/-- A pop that passes its checks. -/
theorem State.pop_of_room (s : State) (h1 : 2 ≤ s.sp.toNat) (h2 : s.sp.toNat - 1 < s.memLen) :
    s.pop =
      .ok (pairOf (s.mem.read (s.sp.toNat - 1)) (s.mem.read (s.sp.toNat - 2)),
        s.setSp (BitVec.ofNat 16 (s.sp.toNat - 2))) := by
  unfold State.pop
  rw [check_of _ _ h1, State.memReadWord_eq, if_pos (by omega), show s.sp.toNat - 2 + 1 = s.sp.toNat - 1 by omega]
  rfl

/-- A pop answers a word only when it passes its checks. -/
theorem State.pop_ok (s : State) (r : Word × State) (h : s.pop = .ok r) :
    2 ≤ s.sp.toNat ∧ s.sp.toNat - 1 < s.memLen ∧
      r = (pairOf (s.mem.read (s.sp.toNat - 1)) (s.mem.read (s.sp.toNat - 2)),
        s.setSp (BitVec.ofNat 16 (s.sp.toNat - 2))) := by
  by_cases h1 : 2 ≤ s.sp.toNat
  · by_cases h2 : s.sp.toNat - 1 < s.memLen
    · rw [State.pop_of_room s h1 h2] at h
      exact ⟨h1, h2, (Except.ok.inj h).symm⟩
    · unfold State.pop at h
      rw [check_of _ _ h1, State.memReadWord_eq, if_neg (by omega)] at h
      split at h <;> cases h
  · unfold State.pop at h
    rw [check_of_not _ _ h1] at h
    cases h

/-! How a step ends. -/

theorem State.complete_ok (s t : State) : s.complete (.ok t) = .next t := rfl

theorem State.complete_error (s : State) (e : Error) : s.complete (.error e) = .next (s.faultedWith e) := rfl

theorem State.raise_eq (s : State) (e : Error) : s.raise e = .next (s.faultedWith e) := rfl

theorem State.halt_eq (s : State) : s.halt = .next s.haltedNow := rfl

/-- A completed step answers a next state: the body's, or the state before it with only `status` changed. -/
theorem State.complete_next (s t : State) (body : Except Error State) (h : s.complete body = .next t) :
    body = .ok t ∨ ∃ e, t = s.faultedWith e := by
  cases body with
  | ok u => exact Or.inl (congrArg _ (Host.Outcome.next.inj h))
  | error e => exact Or.inr ⟨e, (Host.Outcome.next.inj h).symm⟩

/-- A sequential instruction whose advance and body pass. -/
theorem State.sequential_ok (s u : State) (len : Nat) (h : s.pc.toNat + len ≤ 0xFFFF) :
    s.sequential len (.ok u) = .next (u.setPc (BitVec.ofNat 16 (s.pc.toNat + len))) := by
  unfold State.sequential
  rw [State.nextPc_eq, if_pos h]
  rfl

/-- A sequential instruction whose body fails. -/
theorem State.sequential_error (s : State) (e : Error) (len : Nat) (h : s.pc.toNat + len ≤ 0xFFFF) :
    s.sequential len (.error e) = .next (s.faultedWith e) := by
  unfold State.sequential
  rw [State.nextPc_eq, if_pos h]
  rfl

/-- A sequential instruction whose advance would pass 0xFFFF. -/
theorem State.sequential_past (s : State) (len : Nat) (body : Except Error State) (h : 0xFFFF < s.pc.toNat + len) :
    s.sequential len body = .next (s.faultedWith (.outOfBounds (s.pc.toNat + len : Nat))) := by
  unfold State.sequential
  rw [State.nextPc_eq, if_neg (by omega)]
  rfl

/-- Everything a sequential instruction can answer. -/
theorem State.sequential_next (s t : State) (len : Nat) (body : Except Error State)
    (h : s.sequential len body = .next t) :
    (∃ u, s.pc.toNat + len ≤ 0xFFFF ∧ body = .ok u ∧ t = u.setPc (BitVec.ofNat 16 (s.pc.toNat + len))) ∨
      ∃ e, t = s.faultedWith e := by
  by_cases hpc : s.pc.toNat + len ≤ 0xFFFF
  · cases body with
    | ok u =>
      rw [State.sequential_ok s u len hpc] at h
      exact Or.inl ⟨u, hpc, rfl, (Host.Outcome.next.inj h).symm⟩
    | error e =>
      rw [State.sequential_error s e len hpc] at h
      exact Or.inr ⟨e, (Host.Outcome.next.inj h).symm⟩
  · rw [State.sequential_past s len body (by omega)] at h
    exact Or.inr ⟨_, (Host.Outcome.next.inj h).symm⟩

/-- A sequential instruction never stops and is never refused. -/
theorem State.sequential_total (s : State) (len : Nat) (body : Except Error State) :
    ∃ t, s.sequential len body = .next t := by
  unfold State.sequential State.complete
  split
  · exact ⟨_, rfl⟩
  · exact ⟨_, rfl⟩

/-- Everything a conditional jump can answer. -/
theorem State.jumpIf_next (s t : State) (cond : Cond) (target : Word) (h : s.jumpIf cond target = .next t) :
    (condHolds s.f cond = true ∧ t = s.setPc target) ∨
      (condHolds s.f cond = false ∧ s.pc.toNat + 3 ≤ 0xFFFF ∧ t = s.setPc (BitVec.ofNat 16 (s.pc.toNat + 3))) ∨
      ∃ e, t = s.faultedWith e := by
  unfold State.jumpIf at h
  split at h
  · exact Or.inl ⟨by assumption, (Host.Outcome.next.inj h).symm⟩
  · rename_i hc
    rcases State.sequential_next s t 3 _ h with ⟨u, hpc, hu, ht⟩ | he
    · cases hu
      exact Or.inr (Or.inl ⟨by simpa using hc, hpc, ht⟩)
    · exact Or.inr (Or.inr he)

/-! Operands and the shared bodies of INR, DCR and the port instructions. -/

theorem State.readOperand_ok (s : State) (o : Operand) (v : Byte) (h : s.readOperand o = .ok v) :
    (∃ r, o = .reg r ∧ v = s.reg r) ∨ (o = .mem ∧ s.hlAddr < s.memLen ∧ v = s.mem.read s.hlAddr) := by
  cases o with
  | reg r => exact Or.inl ⟨r, rfl, (Except.ok.inj h).symm⟩
  | mem =>
    change s.memRead s.hlAddr = .ok v at h
    rw [State.memRead_eq] at h
    split at h
    · exact Or.inr ⟨rfl, by assumption, (Except.ok.inj h).symm⟩
    · cases h

theorem State.writeOperand_ok (s t : State) (o : Operand) (v : Byte) (h : s.writeOperand o v = .ok t) :
    (∃ r, o = .reg r ∧ t = s.setReg r v) ∨
      (o = .mem ∧ s.hlAddr < s.memLen ∧ t = s.setMem (s.mem.write s.hlAddr v)) := by
  cases o with
  | reg r => exact Or.inl ⟨r, rfl, (Except.ok.inj h).symm⟩
  | mem =>
    change s.memWrite s.hlAddr v = .ok t at h
    rw [State.memWrite_eq] at h
    split at h
    · exact Or.inr ⟨rfl, by assumption, (Except.ok.inj h).symm⟩
    · cases h

/-- INR and DCR of a register. -/
theorem State.bump_reg (s : State) (r : Reg) (delta : Byte) :
    s.bump (.reg r) delta = .ok ((s.setReg r (s.reg r + delta)).updateFlags (s.reg r + delta) false szpa) := rfl

/-- INR and DCR of the byte at HL. -/
theorem State.bump_mem (s : State) (delta : Byte) :
    s.bump .mem delta =
      if s.hlAddr < s.memLen then
        .ok ((s.setMem (s.mem.write s.hlAddr (s.mem.read s.hlAddr + delta))).updateFlags
          (s.mem.read s.hlAddr + delta) false szpa)
      else .error (.outOfBounds s.hlAddr) := by
  unfold State.bump State.readOperand State.writeOperand
  simp only
  rw [State.memRead_eq]
  split
  · simp only [bind, Except.bind]
    rw [State.memWrite_eq, if_pos (by assumption)]
  · rfl

/-- Everything INR and DCR's shared body can answer. -/
theorem State.bump_ok (s t : State) (o : Operand) (delta : Byte) (h : s.bump o delta = .ok t) :
    (∃ r, o = .reg r ∧ t = (s.setReg r (s.reg r + delta)).updateFlags (s.reg r + delta) false szpa) ∨
      (o = .mem ∧ s.hlAddr < s.memLen ∧
        t = (s.setMem (s.mem.write s.hlAddr (s.mem.read s.hlAddr + delta))).updateFlags
          (s.mem.read s.hlAddr + delta) false szpa) := by
  cases o with
  | reg r => exact Or.inl ⟨r, rfl, (Except.ok.inj h).symm⟩
  | mem =>
    rw [State.bump_mem] at h
    split at h
    · exact Or.inr ⟨rfl, by assumption, (Except.ok.inj h).symm⟩
    · cases h

/-- The flags after an update: S, Z, P and C where asked for, AC as it was, bits 1, 3 and 5 fixed. -/
theorem updateFlags_getLsbD (f result : Byte) (carryOut : Bool) (which : FlagSet) (i : Nat) :
    (Machine.updateFlags f result carryOut which).getLsbD i =
      if i = 1 then true
      else if i = 3 ∨ i = 5 then false
      else if which.c = true ∧ i = 0 then carryOut
      else if which.p = true ∧ i = 2 then evenParity result
      else if which.z = true ∧ i = 6 then result == 0
      else if which.s = true ∧ i = 7 then result.getLsbD 7
      else f.getLsbD i := by
  unfold Machine.updateFlags
  simp only
  rw [fix_getLsbD, putBitIf_getLsbD _ _ _ _ _ (by decide), putBitIf_getLsbD _ _ _ _ _ (by decide),
    putBitIf_getLsbD _ _ _ _ _ (by decide), putBitIf_getLsbD _ _ _ _ _ (by decide)]

end Sys2Proof.Machine
end

