-- ==== Sys2Proof/Laws/Step.lean ====
section
/-! SUPPORT. What a fetch, an instruction and a step can answer, said once. -/

namespace Sys2Proof.Machine

/-- Everything a fetch under `exact` can answer. -/
theorem State.fetchExact_eq (s : State) :
    s.fetchExact =
      if s.memLen ≤ s.pc.toNat then .error (.outOfBounds s.pc.toNat)
      else match decodeHead (s.byteAt s.pc.toNat) with
        | .op i => .ok i
        | .opD8 f =>
          if s.memLen ≤ s.pc.toNat + 1 then .error (.outOfBounds (s.pc.toNat + 1 : Nat))
          else .ok (f (s.byteAt (s.pc.toNat + 1)))
        | .opA16 f =>
          if s.memLen ≤ s.pc.toNat + 1 then .error (.outOfBounds (s.pc.toNat + 1 : Nat))
          else if s.memLen ≤ s.pc.toNat + 2 then .error (.outOfBounds (s.pc.toNat + 2 : Nat))
          else .ok (f (pairOf (s.byteAt (s.pc.toNat + 2)) (s.byteAt (s.pc.toNat + 1)))) := by
  unfold State.fetchExact
  simp only [State.memRead_eq]
  by_cases h : s.memLen ≤ s.pc.toNat
  · rw [if_neg (show ¬ s.pc.toNat < s.memLen by omega), if_pos h]; rfl
  rw [if_pos (show s.pc.toNat < s.memLen by omega), if_neg h]
  show (match decodeHead (s.byteAt s.pc.toNat) with | .op i => _ | .opD8 f => _ | .opA16 f => _) = _
  cases decodeHead (s.byteAt s.pc.toNat) with
  | op i => rfl
  | opD8 f =>
    simp only []
    by_cases h1 : s.memLen ≤ s.pc.toNat + 1
    · rw [if_neg (show ¬ s.pc.toNat + 1 < s.memLen by omega), if_pos h1]; rfl
    · rw [if_pos (show s.pc.toNat + 1 < s.memLen by omega), if_neg h1]; rfl
  | opA16 f =>
    simp only []
    by_cases h1 : s.memLen ≤ s.pc.toNat + 1
    · rw [if_neg (show ¬ s.pc.toNat + 1 < s.memLen by omega), if_pos h1]; rfl
    rw [if_pos (show s.pc.toNat + 1 < s.memLen by omega), if_neg h1]
    by_cases h2 : s.memLen ≤ s.pc.toNat + 2
    · rw [if_neg (show ¬ s.pc.toNat + 2 < s.memLen by omega), if_pos h2]; rfl
    · rw [if_pos (show s.pc.toNat + 2 < s.memLen by omega), if_neg h2]; rfl

/-- Everything a fetch under `three` can answer. -/
theorem State.fetchThree_eq (s : State) :
    s.fetchThree =
      if s.memLen ≤ s.pc.toNat then .error (.outOfBounds s.pc.toNat)
      else if s.memLen ≤ s.pc.toNat + 1 then .error (.outOfBounds (s.pc.toNat + 1 : Nat))
      else if s.memLen ≤ s.pc.toNat + 2 then .error (.outOfBounds (s.pc.toNat + 2 : Nat))
      else .ok ((decodeHead (s.byteAt s.pc.toNat)).complete (s.byteAt (s.pc.toNat + 1))
        (s.byteAt (s.pc.toNat + 2))) := by
  unfold State.fetchThree
  simp only [State.memRead_eq]
  by_cases h : s.memLen ≤ s.pc.toNat
  · rw [if_neg (show ¬ s.pc.toNat < s.memLen by omega), if_pos h]; rfl
  rw [if_pos (show s.pc.toNat < s.memLen by omega), if_neg h]
  by_cases h1 : s.memLen ≤ s.pc.toNat + 1
  · rw [if_neg (show ¬ s.pc.toNat + 1 < s.memLen by omega), if_pos h1]; rfl
  rw [if_pos (show s.pc.toNat + 1 < s.memLen by omega), if_neg h1]
  by_cases h2 : s.memLen ≤ s.pc.toNat + 2
  · rw [if_neg (show ¬ s.pc.toNat + 2 < s.memLen by omega), if_pos h2]; rfl
  · rw [if_pos (show s.pc.toNat + 2 < s.memLen by omega), if_neg h2]; rfl

/-- A fetch that answers read what the decoder reads from the bytes at pc. -/
theorem State.fetch_ok (s : State) (i : Instr) (h : s.fetch = .ok i) : ∃ rest, decode s.windowBytes = .ok (i, rest) := by
  unfold State.fetch at h
  cases hw : s.window with
  | exact =>
    simp only [hw] at h
    rw [State.fetchExact_eq] at h
    split at h
    · cases h
    · cases hd : decodeHead (s.byteAt s.pc.toNat) with
      | op j =>
        simp only [hd] at h
        cases h
        simp [decode, State.windowBytes, hd]
      | opD8 f =>
        simp only [hd] at h
        split at h
        · cases h
        · cases h
          simp [decode, State.windowBytes, hd]
      | opA16 f =>
        simp only [hd] at h
        split at h
        · cases h
        · split at h
          · cases h
          · cases h
            simp [decode, State.windowBytes, hd]
  | three =>
    simp only [hw] at h
    rw [State.fetchThree_eq] at h
    split at h
    · cases h
    · split at h
      · cases h
      · split at h
        · cases h
        · cases h
          cases hd : decodeHead (s.byteAt s.pc.toNat) <;> simp [decode, State.windowBytes, hd, Head.complete]

/-- A fetch that fails raises OutOfBounds. -/
theorem State.fetch_error (s : State) (e : Error) (h : s.fetch = .error e) : ∃ addr, e = .outOfBounds addr := by
  unfold State.fetch at h
  cases hw : s.window with
  | exact =>
    simp only [hw] at h
    rw [State.fetchExact_eq] at h
    split at h
    · cases h; exact ⟨_, rfl⟩
    · split at h
      · cases h
      · split at h <;> cases h
        exact ⟨_, rfl⟩
      · split at h
        · cases h; exact ⟨_, rfl⟩
        · split at h <;> cases h
          exact ⟨_, rfl⟩
  | three =>
    simp only [hw] at h
    rw [State.fetchThree_eq] at h
    split at h
    · cases h; exact ⟨_, rfl⟩
    · split at h
      · cases h; exact ⟨_, rfl⟩
      · split at h <;> cases h
        exact ⟨_, rfl⟩

/-- A step of a Running machine. -/
theorem step_running (s : State) (h : s.status = .running) :
    step s = match s.fetch with
      | .error e => s.raise e
      | .ok i => exec i s := by
  cases hf : s.fetch <;> simp [step, h, hf]

/-- Everything a step that answers a next state did. -/
theorem step_next (s t : State) (h : step s = .next t) :
    s.status = .running ∧
      ((∃ e, s.fetch = .error e ∧ t = s.faultedWith e) ∨ ∃ i, s.fetch = .ok i ∧ exec i s = .next t) := by
  have hr : s.status = .running := by
    cases hs : s.status with
    | running => rfl
    | halted => unfold step at h; rw [hs] at h; cases h
    | faulted e => unfold step at h; rw [hs] at h; cases h
  rw [step_running s hr] at h
  refine ⟨hr, ?_⟩
  cases hf : s.fetch with
  | error e => rw [hf] at h; exact Or.inl ⟨e, rfl, (Host.Outcome.next.inj h).symm⟩
  | ok i => rw [hf] at h; exact Or.inr ⟨i, rfl, h⟩

/-- What a next state may be: only `status` changed by an error, or by HLT, or a state in which only what the instruction
writes, and pc, may differ. Where a value matters to the frames it is named, from the state before. -/
def Effect (i : Instr) (s t : State) : Prop :=
  (∃ e, t = s.faultedWith e) ∨ (i = .hlt ∧ t = s.haltedNow) ∨
  ∃ pc', match i with
  | .nop | .jmp _ | .jnz _ | .jz _ | .jnc _ | .jc _ | .jpo _ | .jpe _ | .jp _ | .jm _ => t = s.setPc pc'
  | .hlt | .unimplemented _ => False
  | .call _ => ∃ w sp', s.sp.toNat + 1 < s.memLen ∧
      t = ((s.setMem (s.mem.writeWord s.sp.toNat w)).setSp sp').setPc pc'
  | .ret => ∃ sp', t = (s.setSp sp').setPc pc'
  | .out port => t = ((s.applyHook (Config.outHook s port s.a)).logPort (.write port s.a)).setPc pc'
  | .inp port =>
      t = (((s.applyHook (Config.inHook s port).effect).setReg .a (Config.inHook s port).value).logPort
        (.read port (Config.inHook s port).value)).setPc pc'
  | .sphl => t = (s.setSp (s.pair .hl)).setPc pc'
  | .lda addr => t = (s.setReg .a (s.mem.read addr.toNat)).setPc pc'
  | .sta addr => addr.toNat < s.memLen ∧ t = (s.setMem (s.mem.write addr.toNat s.a)).setPc pc'
  | .lhld _ => ∃ w, t = (s.setPair .hl w).setPc pc'
  | .shld addr => addr.toNat + 1 < s.memLen ∧ t = (s.setMem (s.mem.writeWord addr.toNat (s.pair .hl))).setPc pc'
  | .movRR dst src => t = (s.setReg dst (s.reg src)).setPc pc'
  | .movRM dst => t = (s.setReg dst (s.mem.read s.hlAddr)).setPc pc'
  | .movMR src => s.hlAddr < s.memLen ∧ t = (s.setMem (s.mem.write s.hlAddr (s.reg src))).setPc pc'
  | .mviR dst imm => t = (s.setReg dst imm).setPc pc'
  | .mviM imm => s.hlAddr < s.memLen ∧ t = (s.setMem (s.mem.write s.hlAddr imm)).setPc pc'
  | .inrR r | .dcrR r => ∃ v, t = ((s.setReg r v).updateFlags v false szpa).setPc pc'
  | .inrM | .dcrM => ∃ v, s.hlAddr < s.memLen ∧
      t = ((s.setMem (s.mem.write s.hlAddr v)).updateFlags v false szpa).setPc pc'
  | .cmpR _ | .cmpM | .cpi _ => ∃ v, t = (s.compare v).setPc pc'
  | .lxi rp _ | .inx rp | .dcx rp => ∃ w, t = (s.writeSel rp w).setPc pc'
  | .ldax _ => ∃ v, t = (s.setReg .a v).setPc pc'
  | .stax rp => ∃ q, addressPair rp "STAX" = .ok q ∧ (s.pair q).toNat < s.memLen ∧
      t = (s.setMem (s.mem.write (s.pair q).toNat s.a)).setPc pc'
  | .pushRp _ | .pushPsw => ∃ w sp', s.sp.toNat + 1 < s.memLen ∧
      t = ((s.setMem (s.mem.writeWord s.sp.toNat w)).setSp sp').setPc pc'
  | .popRp rp => ∃ w sp', t = ((s.setSp sp').setPair rp w).setPc pc'
  | .popPsw => ∃ sp', 2 ≤ s.sp.toNat ∧
      t = ((s.setSp sp').setPsw
        (pairOf (s.mem.read (s.sp.toNat - 1)) (s.mem.read (s.sp.toNat - 2)))).setPc pc'

/-- What executing an instruction can change, said once: cite this for a frame or an invariant. -/
theorem exec_effect (i : Instr) (s t : State) (h : exec i s = .next t) : Effect i s t := by
  have key : ∀ {len body}, s.sequential len body = .next t →
      ((∃ e, t = s.faultedWith e) ∨ ∃ u pc', body = .ok u ∧ t = u.setPc pc') := by
    intro len body h
    rcases State.sequential_next s t len body h with ⟨u, _, hu, ht⟩ | he
    · exact .inr ⟨u, _, hu, ht⟩
    · exact .inl he
  have jkey : ∀ {cond w}, s.jumpIf cond w = .next t →
      ((∃ e, t = s.faultedWith e) ∨ ∃ pc', t = s.setPc pc') := by
    intro cond w h
    rcases State.jumpIf_next s t cond w h with ⟨_, ht⟩ | ⟨_, _, ht⟩ | he
    · exact .inr ⟨_, ht⟩
    · exact .inr ⟨_, ht⟩
    · exact .inl he
  unfold Effect
  cases i
  case jmp w => exact .inr (.inr ⟨w, (Host.Outcome.next.inj h).symm⟩)
  case hlt => exact .inr (.inl ⟨rfl, (Host.Outcome.next.inj h).symm⟩)
  case unimplemented op => exact .inl ⟨_, (Host.Outcome.next.inj h).symm⟩
  case call w =>
    rcases State.complete_next s t _ h with h | h
    · obtain ⟨r, _, h⟩ := except_bind_ok _ _ _ h
      obtain ⟨u, hu, h⟩ := except_bind_ok _ _ _ h
      obtain ⟨h1, h2, rfl⟩ := State.push_ok _ _ _ hu
      exact .inr (.inr ⟨w, r, _, h1, (Except.ok.inj h).symm⟩)
    · exact .inl h
  case ret =>
    rcases State.complete_next s t _ h with h | h
    · obtain ⟨r, hr, h⟩ := except_bind_ok _ _ _ h
      obtain ⟨h1, h2, rfl⟩ := State.pop_ok _ _ hr
      exact .inr (.inr ⟨_, _, (Except.ok.inj h).symm⟩)
    · exact .inl h
  case ldax p =>
    cases hp : addressPair p "LDAX" with
    | error e => simp only [exec, execLdax, hp] at h; exact .inl ⟨_, (Host.Outcome.next.inj h).symm⟩
    | ok q =>
      simp only [exec, execLdax, hp] at h
      rcases key h with h | ⟨u, pc', hu, ht⟩
      · exact .inl h
      · obtain ⟨v, _, hu⟩ := except_bind_ok _ _ _ hu
        cases hu
        exact .inr (.inr ⟨pc', v, ht⟩)
  case stax p =>
    cases hp : addressPair p "STAX" with
    | error e => simp only [exec, execStax, hp] at h; exact .inl ⟨_, (Host.Outcome.next.inj h).symm⟩
    | ok q =>
      simp only [exec, execStax, hp] at h
      rcases key h with h | ⟨u, pc', hu, ht⟩
      · exact .inl h
      · obtain ⟨hl, rfl⟩ := State.memWrite_ok _ _ _ _ hu
        exact .inr (.inr ⟨pc', q, hp, hl, ht⟩)
  case jnz w => rcases jkey h with h | ⟨pc', ht⟩; exacts [.inl h, .inr (.inr ⟨_, ht⟩)]
  case jz w => rcases jkey h with h | ⟨pc', ht⟩; exacts [.inl h, .inr (.inr ⟨_, ht⟩)]
  case jnc w => rcases jkey h with h | ⟨pc', ht⟩; exacts [.inl h, .inr (.inr ⟨_, ht⟩)]
  case jc w => rcases jkey h with h | ⟨pc', ht⟩; exacts [.inl h, .inr (.inr ⟨_, ht⟩)]
  case jpo w => rcases jkey h with h | ⟨pc', ht⟩; exacts [.inl h, .inr (.inr ⟨_, ht⟩)]
  case jpe w => rcases jkey h with h | ⟨pc', ht⟩; exacts [.inl h, .inr (.inr ⟨_, ht⟩)]
  case jp w => rcases jkey h with h | ⟨pc', ht⟩; exacts [.inl h, .inr (.inr ⟨_, ht⟩)]
  case jm w => rcases jkey h with h | ⟨pc', ht⟩; exacts [.inl h, .inr (.inr ⟨_, ht⟩)]
  all_goals (rcases key h with h | ⟨u, pc', hu, ht⟩; exact .inl h; refine .inr (.inr ⟨pc', ?_⟩))
  case nop => cases hu; exact ht
  case out p =>
    obtain ⟨_, _, hu⟩ := except_bind_ok _ _ _ hu
    cases hu; exact ht
  case inp p =>
    obtain ⟨_, _, hu⟩ := except_bind_ok _ _ _ hu
    cases hu; exact ht
  case sphl => cases hu; exact ht
  case lda a =>
    obtain ⟨v, hv, hu⟩ := except_bind_ok _ _ _ hu
    obtain ⟨_, rfl⟩ := State.memRead_ok _ _ _ hv
    cases hu; exact ht
  case sta a => obtain ⟨hl, rfl⟩ := State.memWrite_ok _ _ _ _ hu; exact ⟨hl, ht⟩
  case lhld a =>
    obtain ⟨v, hv, hu⟩ := except_bind_ok _ _ _ hu
    cases hu; exact ⟨_, ht⟩
  case shld a => obtain ⟨hl, rfl⟩ := State.memWriteWord_ok _ _ _ _ hu; exact ⟨hl, ht⟩
  case movRR => cases hu; exact ht
  case movRM =>
    obtain ⟨v, hv, hu⟩ := except_bind_ok _ _ _ hu
    obtain ⟨_, rfl⟩ := State.memRead_ok _ _ _ hv
    cases hu; exact ht
  case movMR => obtain ⟨hl, rfl⟩ := State.memWrite_ok _ _ _ _ hu; exact ⟨hl, ht⟩
  case mviR => cases hu; exact ht
  case mviM => obtain ⟨hl, rfl⟩ := State.memWrite_ok _ _ _ _ hu; exact ⟨hl, ht⟩
  case dcrR r => cases hu; exact ⟨_, ht⟩
  case inrR r => cases hu; exact ⟨_, ht⟩
  case dcrM =>
    rcases State.bump_ok _ _ _ _ hu with ⟨r, h, _⟩ | ⟨_, hl, rfl⟩
    · cases h
    · exact ⟨_, hl, ht⟩
  case inrM =>
    rcases State.bump_ok _ _ _ _ hu with ⟨r, h, _⟩ | ⟨_, hl, rfl⟩
    · cases h
    · exact ⟨_, hl, ht⟩
  case cmpR => cases hu; exact ⟨_, ht⟩
  case cpi => cases hu; exact ⟨_, ht⟩
  case cmpM => obtain ⟨v, hv, hu⟩ := except_bind_ok _ _ _ hu; cases hu; exact ⟨_, ht⟩
  case lxi => cases hu; exact ⟨_, ht⟩
  case inx => cases hu; exact ⟨_, ht⟩
  case dcx => cases hu; exact ⟨_, ht⟩
  case pushRp => obtain ⟨h1, h2, rfl⟩ := State.push_ok _ _ _ hu; exact ⟨_, _, h1, ht⟩
  case pushPsw => obtain ⟨h1, h2, rfl⟩ := State.push_ok _ _ _ hu; exact ⟨_, _, h1, ht⟩
  case popRp =>
    obtain ⟨r, hr, hu⟩ := except_bind_ok _ _ _ hu
    obtain ⟨h1, h2, rfl⟩ := State.pop_ok _ _ hr
    cases hu; exact ⟨_, _, ht⟩
  case popPsw =>
    obtain ⟨r, hr, hu⟩ := except_bind_ok _ _ _ hu
    obtain ⟨h1, h2, rfl⟩ := State.pop_ok _ _ hr
    cases hu; exact ⟨_, h1, ht⟩

/-- Executing an instruction always answers a next state. -/
theorem exec_answers (i : Instr) (s : State) : ∃ t, exec i s = .next t := by
  have jump : ∀ cond target, ∃ t, s.jumpIf cond target = .next t := by
    intro cond target
    unfold State.jumpIf
    split
    · exact ⟨_, rfl⟩
    · exact State.sequential_total _ _ _
  have whole : ∀ body, ∃ t, s.complete body = .next t := by
    intro body
    cases body <;> exact ⟨_, rfl⟩
  cases i
  case ldax p => cases p <;> first | exact State.sequential_total _ _ _ | exact ⟨_, rfl⟩
  case stax p => cases p <;> first | exact State.sequential_total _ _ _ | exact ⟨_, rfl⟩
  all_goals first
    | exact State.sequential_total _ _ _
    | exact jump _ _
    | exact whole _
    | exact ⟨_, rfl⟩

/-! Which errors an instruction can raise. -/

/-- An error of an access: a bound, a new pc or SP, or a missing hook. -/
def Error.isAccess : Error → Bool
  | .outOfBounds _ | .missingPortHandler _ => true
  | .unimplementedOpcode _ | .invalidRegisterPairSelector _ _ => false

/-- A body that keeps `status` where it answers, and raises only errors of an access. -/
def State.Plain (s : State) (body : Except Error State) : Prop :=
  match body with
  | .ok t => t.status = s.status
  | .error e => e.isAccess = true

/-- A body after an access: plain when the access is, and so is what follows it. -/
theorem State.plain_bind {α : Type} (s : State) (x : Except Error α) (f : α → Except Error State)
    (hx : ∀ e, x = .error e → e.isAccess = true) (hf : ∀ v, x = .ok v → s.Plain (f v)) : s.Plain (x >>= f) := by
  cases x with
  | error e => exact hx e rfl
  | ok v => exact hf v rfl

theorem check_error (cond : Prop) [Decidable cond] (e e' : Error) (h : check cond e = .error e') : e' = e := by
  unfold check at h
  split at h <;> cases h
  rfl

theorem State.memRead_error (s : State) (addr : Nat) (e : Error) (h : s.memRead addr = .error e) :
    e.isAccess = true := by
  rw [State.memRead_eq] at h
  split at h <;> cases h
  rfl

theorem State.memReadWord_error (s : State) (addr : Nat) (e : Error) (h : s.memReadWord addr = .error e) :
    e.isAccess = true := by
  rw [State.memReadWord_eq] at h
  split at h
  · cases h
  · split at h <;> cases h <;> rfl

theorem State.nextPc_error (s : State) (len : Nat) (e : Error) (h : s.nextPc len = .error e) : e.isAccess = true := by
  rw [State.nextPc_eq] at h
  split at h <;> cases h
  rfl

theorem State.memWrite_plain (s : State) (addr : Nat) (v : Byte) : s.Plain (s.memWrite addr v) := by
  rw [State.memWrite_eq]
  split <;> rfl

theorem State.memWriteWord_plain (s : State) (addr : Nat) (w : Word) : s.Plain (s.memWriteWord addr w) := by
  rw [State.memWriteWord_eq]
  split
  · rfl
  · split <;> rfl

theorem State.bump_plain (s : State) (o : Operand) (delta : Byte) : s.Plain (s.bump o delta) := by
  cases o with
  | reg r =>
    rw [State.bump_reg]
    simp [State.Plain]
  | mem =>
    rw [State.bump_mem]
    split <;> rfl

theorem State.push_plain (s : State) (w : Word) : s.Plain (s.push w) := by
  unfold State.push
  refine s.plain_bind _ _ (fun e h => by rw [check_error _ _ _ h]; rfl) (fun _ _ => ?_)
  refine s.plain_bind _ _ (fun e h => by rw [check_error _ _ _ h]; rfl) (fun _ _ => ?_)
  refine s.plain_bind _ _ (fun e h => by rw [check_error _ _ _ h]; rfl) (fun _ _ => ?_)
  refine s.plain_bind _ _ (fun e h => ?_) (fun t h => ?_)
  · have := s.memWriteWord_plain s.sp.toNat w
    rw [h] at this
    exact this
  · have := s.memWriteWord_plain s.sp.toNat w
    rw [h] at this
    exact this

theorem State.pop_error (s : State) (e : Error) (h : s.pop = .error e) : e.isAccess = true := by
  unfold State.pop at h
  by_cases hsp : 2 ≤ s.sp.toNat
  · rw [check_of _ _ hsp] at h
    cases hw : s.memReadWord (s.sp.toNat - 2) with
    | error e' =>
      have := s.memReadWord_error _ _ hw
      simp only [hw] at h
      cases h
      exact this
    | ok w => simp only [hw] at h; cases h
  · rw [check_of_not _ _ hsp] at h
    cases h
    rfl

/-- A completed step whose body is plain ends as it began, or with an error of an access. -/
theorem State.complete_plain (s t : State) (body : Except Error State) (e : Error) (hb : s.Plain body)
    (hs : s.status = .running) (h : s.complete body = .next t) (he : t.status = .faulted e) : e.isAccess = true := by
  cases body with
  | ok u =>
    cases h
    rw [show t.status = s.status from hb, hs] at he
    cases he
  | error e' =>
    cases h
    cases he
    exact hb

theorem State.sequential_plain (s t : State) (len : Nat) (body : Except Error State) (e : Error) (hb : s.Plain body)
    (hs : s.status = .running) (h : s.sequential len body = .next t) (he : t.status = .faulted e) :
    e.isAccess = true := by
  refine s.complete_plain t _ e (s.plain_bind _ _ (s.nextPc_error len) fun pc' _ => ?_) hs h he
  cases body with
  | ok u => exact hb
  | error e' => exact hb

theorem State.jumpIf_plain (s t : State) (cond : Cond) (target : Word) (e : Error) (hs : s.status = .running)
    (h : s.jumpIf cond target = .next t) (he : t.status = .faulted e) : e.isAccess = true := by
  unfold State.jumpIf at h
  split at h
  · cases h
    rw [show (s.setPc target).status = s.status from rfl, hs] at he
    cases he
  · refine s.sequential_plain t 3 _ e ?_ hs h he
    rfl

/-- A well-formed instruction raises an error of an access, or it is an unimplemented opcode and raises that. -/
theorem exec_error (i : Instr) (s t : State) (e : Error) (hw : i.wf = true) (hs : s.status = .running)
    (h : exec i s = .next t) (he : t.status = .faulted e) :
    e.isAccess = true ∨ ∃ op, i = .unimplemented op ∧ e = .unimplementedOpcode op := by
  have load : ∀ addr dst, s.Plain (s.memRead addr >>= fun v => .ok (s.setReg dst v)) := fun addr dst =>
    s.plain_bind _ _ (s.memRead_error addr) fun v _ => by simp [State.Plain]
  cases i
  case unimplemented op =>
    cases h
    cases he
    exact Or.inr ⟨op, rfl, rfl⟩
  all_goals left
  case hlt => cases h; cases he
  case jmp target =>
    cases h
    rw [show (s.setPc target).status = s.status from rfl, hs] at he
    cases he
  case call target =>
    refine s.complete_plain t _ e (s.plain_bind _ _ (s.nextPc_error 3) fun w _ => ?_) hs h he
    have hp := s.push_plain w
    refine s.plain_bind _ _ (fun e' h' => ?_) fun u h' => ?_
    · rw [h'] at hp; exact hp
    · rw [h'] at hp; exact hp
  case ret =>
    refine s.complete_plain t _ e (s.plain_bind _ _ s.pop_error fun r hr => ?_) hs h he
    obtain ⟨-, -, rfl⟩ := s.pop_ok r hr
    rfl
  case ldax rp => cases rp <;> first | exact s.sequential_plain t 1 _ e (load _ _) hs h he | cases hw
  case stax rp =>
    cases rp <;> first | exact s.sequential_plain t 1 _ e (s.memWrite_plain _ _) hs h he | cases hw
  case popRp rp =>
    refine s.sequential_plain t 1 _ e (s.plain_bind _ _ s.pop_error fun r hr => ?_) hs h he
    obtain ⟨-, -, rfl⟩ := s.pop_ok r hr
    simp [State.Plain]
  case popPsw =>
    refine s.sequential_plain t 1 _ e (s.plain_bind _ _ s.pop_error fun r hr => ?_) hs h he
    obtain ⟨-, -, rfl⟩ := s.pop_ok r hr
    rfl
  case lhld addr =>
    exact s.sequential_plain t 3 _ e
      (s.plain_bind _ _ (s.memReadWord_error _) fun w _ => by simp [State.Plain]) hs h he
  case cmpM =>
    refine s.sequential_plain t 1 _ e (s.plain_bind _ _ (s.memRead_error _) fun v _ => ?_) hs h he
    rfl
  case inp port =>
    refine s.sequential_plain t 2 _ e
      (s.plain_bind _ _ (fun e' h' => by rw [check_error _ _ _ h']; rfl) fun _ _ => ?_) hs h he
    rfl
  case out port =>
    refine s.sequential_plain t 2 _ e
      (s.plain_bind _ _ (fun e' h' => by rw [check_error _ _ _ h']; rfl) fun _ _ => ?_) hs h he
    rfl
  all_goals first
    | exact s.jumpIf_plain t _ _ e hs h he
    | refine s.sequential_plain t _ _ e ?_ hs h he
      first
        | exact load _ _
        | exact s.memWrite_plain _ _
        | exact s.memWriteWord_plain _ _
        | exact s.bump_plain _ _
        | exact s.push_plain _
        | simp [State.Plain, State.compare]

end Sys2Proof.Machine
end

