-- ==== Sys2Proof/Machine/Assembler.lean ====
section
/-! DEFINITION. How an instruction is written (spec/30_encoding.md R93). No rule of the machine rests on it. The spelling of
the pairs and of the conditional jumps is UNVERIFIED (notes/assumptions/16.md). -/

namespace Sys2Proof

/-- One hexadecimal digit. -/
def hexDigit (n : Nat) : String :=
  match n with
  | 0 => "0"
  | 1 => "1"
  | 2 => "2"
  | 3 => "3"
  | 4 => "4"
  | 5 => "5"
  | 6 => "6"
  | 7 => "7"
  | 8 => "8"
  | 9 => "9"
  | 10 => "A"
  | 11 => "B"
  | 12 => "C"
  | 13 => "D"
  | 14 => "E"
  | _ => "F"

/-- A byte: `0x` and two digits. -/
def hexByte (v : Byte) : String := "0x" ++ hexDigit (v.toNat / 16) ++ hexDigit (v.toNat % 16)

/-- A word: `0x` and four digits. -/
def hexWord (w : Word) : String :=
  "0x" ++ hexDigit (w.toNat / 4096) ++ hexDigit (w.toNat / 256 % 16) ++ hexDigit (w.toNat / 16 % 16) ++
    hexDigit (w.toNat % 16)

def Reg.name : Reg → String
  | .a => "A"
  | .b => "B"
  | .c => "C"
  | .d => "D"
  | .e => "E"
  | .h => "H"
  | .l => "L"

/-- A pair is named by its first register. -/
def Pair.name : Pair → String
  | .bc => "B"
  | .de => "D"
  | .hl => "H"

def PairSel.name : PairSel → String
  | .bc => "B"
  | .de => "D"
  | .hl => "H"
  | .sp => "SP"

/-- The written form, destination first. An opcode that is no instruction, and LDAX or STAX with a selector it does not
accept, has none (R93, R94). -/
def Instr.written : Instr → Option String
  | .nop => some "NOP"
  | .jmp t => some ("JMP " ++ hexWord t)
  | .call t => some ("CALL " ++ hexWord t)
  | .ret => some "RET"
  | .jnz t => some ("JNZ " ++ hexWord t)
  | .jz t => some ("JZ " ++ hexWord t)
  | .jnc t => some ("JNC " ++ hexWord t)
  | .jc t => some ("JC " ++ hexWord t)
  | .jpo t => some ("JPO " ++ hexWord t)
  | .jpe t => some ("JPE " ++ hexWord t)
  | .jp t => some ("JP " ++ hexWord t)
  | .jm t => some ("JM " ++ hexWord t)
  | .out port => some ("OUT " ++ hexByte port)
  | .inp port => some ("IN " ++ hexByte port)
  | .sphl => some "SPHL"
  | .lda addr => some ("LDA " ++ hexWord addr)
  | .sta addr => some ("STA " ++ hexWord addr)
  | .lhld addr => some ("LHLD " ++ hexWord addr)
  | .shld addr => some ("SHLD " ++ hexWord addr)
  | .hlt => some "HLT"
  | .movRR dst src => some ("MOV " ++ dst.name ++ "," ++ src.name)
  | .movRM dst => some ("MOV " ++ dst.name ++ ",M")
  | .movMR src => some ("MOV M," ++ src.name)
  | .mviR dst imm => some ("MVI " ++ dst.name ++ "," ++ hexByte imm)
  | .mviM imm => some ("MVI M," ++ hexByte imm)
  | .dcrR r => some ("DCR " ++ r.name)
  | .dcrM => some "DCR M"
  | .inrR r => some ("INR " ++ r.name)
  | .inrM => some "INR M"
  | .cmpR r => some ("CMP " ++ r.name)
  | .cmpM => some "CMP M"
  | .cpi imm => some ("CPI " ++ hexByte imm)
  | .lxi rp w => some ("LXI " ++ rp.name ++ "," ++ hexWord w)
  | .ldax rp => if rp.addresses then some ("LDAX " ++ rp.name) else none
  | .stax rp => if rp.addresses then some ("STAX " ++ rp.name) else none
  | .dcx rp => some ("DCX " ++ rp.name)
  | .inx rp => some ("INX " ++ rp.name)
  | .pushRp rp => some ("PUSH " ++ rp.name)
  | .pushPsw => some "PUSH PSW"
  | .popRp rp => some ("POP " ++ rp.name)
  | .popPsw => some "POP PSW"
  | .unimplemented _ => none

end Sys2Proof
end

