-- ==== Sys2Proof/Tests/Slice0.lean ====
section
/-! SUPPORT. Small tests. Expected results are those of spec/95_test_vectors.md (named S<n> and V<n>), or read off the
rule named beside the test. -/

namespace Sys2Proof.Tests

open Sys2Proof Sys2Proof.Machine

/-! Helpers: a state with bytes at an address, and the state one step gives. -/

/-- The state after reset with bytes placed from an address upward. -/
def holding (addr : Nat) (bytes : List Byte) : State :=
  { State.reset with mem := Memory.load [] addr bytes }

/-- The state with an instruction's bytes at pc. -/
def withCode (s : State) (bytes : List Byte) : State :=
  { s with mem := Memory.load s.mem s.pc.toNat bytes }

/-- The state one step gives, where it gives one. -/
def after (s : State) : State :=
  match step s with
  | .next t => t
  | .fault _ => s
  | .refused _ => s

/-- A memory of 0x40 bytes, for accesses at its end. -/
def small : State := { State.reset with memLen := 0x40 }

/-- pc at 0x200, as most vectors of section 2.5 have it. -/
def at200 : State := { State.reset with pc := 0x200 }

/-! WellFormed refuses each ill-formed term. -/

theorem test_wf_ldax_bc : (Instr.ldax .bc).wf = true := by decide
theorem test_wf_refuses_ldax_hl : (Instr.ldax .hl).wf = false := by decide
theorem test_wf_refuses_ldax_sp : (Instr.ldax .sp).wf = false := by decide
theorem test_wf_stax_de : (Instr.stax .de).wf = true := by decide
theorem test_wf_refuses_stax_hl : (Instr.stax .hl).wf = false := by decide
theorem test_wf_refuses_stax_sp : (Instr.stax .sp).wf = false := by decide
theorem test_wf_unimplemented_80 : (Instr.unimplemented 0x80).wf = true := by decide
theorem test_wf_refuses_unimplemented_nop : (Instr.unimplemented 0x00).wf = false := by decide
theorem test_wf_refuses_unimplemented_hlt : (Instr.unimplemented 0x76).wf = false := by decide

/-! One word per constructor, written out bit by bit from the patterns of 30_encoding.md R85. -/

theorem test_decode_nop : decodeTableWord 8 0b00000000 = some .nop := by decide
theorem test_decode_jmp : decodeTableWord 24 (0x1234 * 256 + 0b11000011) = some (.jmp 0x1234) := by decide
theorem test_decode_call : decodeTableWord 24 (0x1234 * 256 + 0b11001101) = some (.call 0x1234) := by decide
theorem test_decode_ret : decodeTableWord 8 0b11001001 = some .ret := by decide
theorem test_decode_jnz : decodeTableWord 24 (0x1234 * 256 + 0b11000010) = some (.jnz 0x1234) := by decide
theorem test_decode_jz : decodeTableWord 24 (0x1234 * 256 + 0b11001010) = some (.jz 0x1234) := by decide
theorem test_decode_jnc : decodeTableWord 24 (0x1234 * 256 + 0b11010010) = some (.jnc 0x1234) := by decide
theorem test_decode_jc : decodeTableWord 24 (0x1234 * 256 + 0b11011010) = some (.jc 0x1234) := by decide
theorem test_decode_jpo : decodeTableWord 24 (0x1234 * 256 + 0b11100010) = some (.jpo 0x1234) := by decide
theorem test_decode_jpe : decodeTableWord 24 (0x1234 * 256 + 0b11101010) = some (.jpe 0x1234) := by decide
theorem test_decode_jp : decodeTableWord 24 (0x1234 * 256 + 0b11110010) = some (.jp 0x1234) := by decide
theorem test_decode_jm : decodeTableWord 24 (0x1234 * 256 + 0b11111010) = some (.jm 0x1234) := by decide
theorem test_decode_out : decodeTableWord 16 (0x9A * 256 + 0b11010011) = some (.out 0x9A) := by decide
theorem test_decode_inp : decodeTableWord 16 (0x9A * 256 + 0b11011011) = some (.inp 0x9A) := by decide
theorem test_decode_sphl : decodeTableWord 8 0b11111001 = some .sphl := by decide
theorem test_decode_lda : decodeTableWord 24 (0x1234 * 256 + 0b00111010) = some (.lda 0x1234) := by decide
theorem test_decode_sta : decodeTableWord 24 (0x1234 * 256 + 0b00110010) = some (.sta 0x1234) := by decide
theorem test_decode_lhld : decodeTableWord 24 (0x1234 * 256 + 0b00101010) = some (.lhld 0x1234) := by decide
theorem test_decode_shld : decodeTableWord 24 (0x1234 * 256 + 0b00100010) = some (.shld 0x1234) := by decide
theorem test_decode_hlt : decodeTableWord 8 0b01110110 = some .hlt := by decide
theorem test_decode_movRR : decodeTableWord 8 0b01010011 = some (.movRR .d .e) := by decide
theorem test_decode_movRM : decodeTableWord 8 0b01001110 = some (.movRM .c) := by decide
theorem test_decode_movMR : decodeTableWord 8 0b01110101 = some (.movMR .l) := by decide
theorem test_decode_mviR : decodeTableWord 16 (0x9A * 256 + 0b00100110) = some (.mviR .h 0x9A) := by decide
theorem test_decode_mviM : decodeTableWord 16 (0x9A * 256 + 0b00110110) = some (.mviM 0x9A) := by decide
theorem test_decode_dcrR : decodeTableWord 8 0b00011101 = some (.dcrR .e) := by decide
theorem test_decode_dcrM : decodeTableWord 8 0b00110101 = some .dcrM := by decide
theorem test_decode_inrR : decodeTableWord 8 0b00111100 = some (.inrR .a) := by decide
theorem test_decode_inrM : decodeTableWord 8 0b00110100 = some .inrM := by decide
theorem test_decode_cmpR : decodeTableWord 8 0b10111010 = some (.cmpR .d) := by decide
theorem test_decode_cmpM : decodeTableWord 8 0b10111110 = some .cmpM := by decide
theorem test_decode_cpi : decodeTableWord 16 (0x9A * 256 + 0b11111110) = some (.cpi 0x9A) := by decide
theorem test_decode_lxi : decodeTableWord 24 (0x1234 * 256 + 0b00110001) = some (.lxi .sp 0x1234) := by decide
theorem test_decode_ldax : decodeTableWord 8 0b00011010 = some (.ldax .de) := by decide
theorem test_decode_stax : decodeTableWord 8 0b00000010 = some (.stax .bc) := by decide
theorem test_decode_dcx : decodeTableWord 8 0b00101011 = some (.dcx .hl) := by decide
theorem test_decode_inx : decodeTableWord 8 0b00000011 = some (.inx .bc) := by decide
theorem test_decode_pushRp : decodeTableWord 8 0b11010101 = some (.pushRp .de) := by decide
theorem test_decode_pushPsw : decodeTableWord 8 0b11110101 = some .pushPsw := by decide
theorem test_decode_popRp : decodeTableWord 8 0b11100001 = some (.popRp .hl) := by decide
theorem test_decode_popPsw : decodeTableWord 8 0b11110001 = some .popPsw := by decide
theorem test_decode_unimplemented : decodeTableWord 8 0b11001011 = some (.unimplemented 0xCB) := by decide

theorem test_decode_each_register :
    decodeTableWord 8 0b01000001 = some (.movRR .b .c) ∧ decodeTableWord 8 0b01010011 = some (.movRR .d .e) ∧
      decodeTableWord 8 0b01100101 = some (.movRR .h .l) ∧ decodeTableWord 8 0b01111111 = some (.movRR .a .a) := by
  decide

/-! A few steps per instruction. -/

/-- S1. -/
theorem test_nop_s1 : (after (withCode State.reset [0x00])).pc = 1 := by decide

/-- V71. -/
theorem test_jmp_v71 :
    (after (withCode { State.reset with pc := 1 } [0xC3, 0x00, 0x00])).pc = 0 := by
  decide

/-- V72. -/
theorem test_jmp_v72_then_fetch_faults :
    let t := after (withCode { State.reset with pc := 0x100, memLen := 0x200 } [0xC3, 0x00, 0xF0])
    t.pc = 0xF000 ∧ t.status = .running ∧ (after t).status = .faulted (.outOfBounds 0xF000) := by
  decide

/-- V73. -/
theorem test_jnz_v73 :
    (after (withCode { at200 with f := 0x02 } [0xC2, 0x00, 0x30])).pc = 0x3000 ∧
    (after (withCode { at200 with f := 0x42 } [0xC2, 0x00, 0x30])).pc = 0x0203 := by
  decide

/-- V75. -/
theorem test_jz_v75 :
    (after (withCode { at200 with f := 0x42 } [0xCA, 0x00, 0x30])).pc = 0x3000 ∧
    (after (withCode { at200 with f := 0x02 } [0xCA, 0x00, 0x30])).pc = 0x0203 := by
  decide

/-- V76. -/
theorem test_jnc_v76 :
    (after (withCode { at200 with f := 0x02 } [0xD2, 0x00, 0x30])).pc = 0x3000 ∧
    (after (withCode { at200 with f := 0x03 } [0xD2, 0x00, 0x30])).pc = 0x0203 := by
  decide

/-- V77. -/
theorem test_jc_v77 :
    (after (withCode { at200 with f := 0x03 } [0xDA, 0x00, 0x30])).pc = 0x3000 ∧
    (after (withCode { at200 with f := 0x02 } [0xDA, 0x00, 0x30])).pc = 0x0203 := by
  decide

/-- V78. -/
theorem test_jpo_v78 :
    (after (withCode { at200 with f := 0x02 } [0xE2, 0x00, 0x30])).pc = 0x3000 ∧
    (after (withCode { at200 with f := 0x06 } [0xE2, 0x00, 0x30])).pc = 0x0203 := by
  decide

/-- V79. -/
theorem test_jpe_v79 :
    (after (withCode { at200 with f := 0x06 } [0xEA, 0x00, 0x30])).pc = 0x3000 ∧
    (after (withCode { at200 with f := 0x02 } [0xEA, 0x00, 0x30])).pc = 0x0203 := by
  decide

/-- V80. -/
theorem test_jp_v80 :
    (after (withCode { at200 with f := 0x02 } [0xF2, 0x00, 0x30])).pc = 0x3000 ∧
    (after (withCode { at200 with f := 0x82 } [0xF2, 0x00, 0x30])).pc = 0x0203 := by
  decide

/-- V81. -/
theorem test_jm_v81 :
    (after (withCode { at200 with f := 0x82 } [0xFA, 0x00, 0x30])).pc = 0x3000 ∧
    (after (withCode { at200 with f := 0x02 } [0xFA, 0x00, 0x30])).pc = 0x0203 := by
  decide

/-- V82. -/
theorem test_jz_v82_ignores_ac :
    (after (withCode { at200 with f := 0x12 } [0xCA, 0x00, 0x30])).pc = 0x0203 := by
  decide

/-- V83. -/
theorem test_jnz_v83_past_top :
    let t := after (withCode { State.reset with pc := 0xFFFD, f := 0x42 } [0xC2, 0x00, 0x30])
    t.pc = 0xFFFD ∧ t.status = .faulted (.outOfBounds 0x10000) := by
  decide

/-- V85. -/
theorem test_call_v85 :
    let t := after (withCode { State.reset with pc := 8, sp := 0x30 } [0xCD, 0x10, 0x00])
    t.byteAt 0x30 = 0x0B ∧ t.byteAt 0x31 = 0x00 ∧ t.sp = 0x32 ∧ t.pc = 0x10 := by
  decide

/-- V88. -/
theorem test_call_v88_return_address :
    let t := after (withCode { State.reset with pc := 0xFFFD, sp := 0x30 } [0xCD, 0x00, 0x10])
    t.status = .faulted (.outOfBounds 0x10000) ∧ t.sp = 0x30 := by
  decide

/-- V86. -/
theorem test_ret_v86 :
    let t := after (withCode { holding 0x30 [0x0B, 0x00] with sp := 0x32 } [0xC9])
    t.pc = 0x000B ∧ t.sp = 0x30 := by
  decide

/-- V87. -/
theorem test_ret_v87_underflow :
    (after (withCode State.reset [0xC9])).status = .faulted (.outOfBounds (-2)) := by
  decide

/-- V89. -/
theorem test_hlt_v89 :
    let t := after (withCode { State.reset with pc := 0x106 } [0x76])
    t.status = .halted ∧ t.pc = 0x106 ∧ (after t).status = .halted := by
  decide

/-- V132. -/
theorem test_in_v132_no_hook :
    let t := after (withCode { State.reset with a := 0x33, inHook := false } [0xDB, 0x01])
    t.status = .faulted (.missingPortHandler .inward) ∧ t.a = 0x33 ∧ t.pc = 0 := by
  decide

/-- V133. -/
theorem test_out_v133_no_hook :
    (after (withCode { State.reset with outHook := false } [0xD3, 0x01])).status =
    .faulted (.missingPortHandler .outward) := by
  decide

/-- V125. -/
theorem test_sphl_v125 :
    (after (withCode { State.reset with h := 0x00, l := 0x30 } [0xF9])).sp = 0x30 := by
  decide

/-- V110. -/
theorem test_lda_v110 : (after (withCode (holding 0x15 [0x12]) [0x3A, 0x15, 0x00])).a = 0x12 := by decide

/-- V111. -/
theorem test_sta_v111 :
    (after (withCode { State.reset with a := 0x77 } [0x32, 0x14, 0x00])).byteAt 0x14 = 0x77 := by
  decide

/-- V112. -/
theorem test_lhld_v112 :
    let t := after (withCode (holding 0x14 [0x34, 0x12]) [0x2A, 0x14, 0x00])
    t.l = 0x34 ∧ t.h = 0x12 := by
  decide

/-- V113. -/
theorem test_lhld_v113 :
    (after (withCode small [0x2A, 0x3F, 0x00])).status = .faulted (.outOfBounds 0x40) := by
  decide

/-- V114. -/
theorem test_shld_v114 :
    let t := after (withCode { State.reset with h := 0x12, l := 0x34 } [0x22, 0x14, 0x00])
    t.byteAt 0x14 = 0x34 ∧ t.byteAt 0x15 = 0x12 := by
  decide

/-- V115. -/
theorem test_shld_v115 :
    let t := after (withCode { small with h := 0x12, l := 0x34 } [0x22, 0x3F, 0x00])
    t.status = .faulted (.outOfBounds 0x40) ∧ t.byteAt 0x3F = 0 := by
  decide

/-- V100. -/
theorem test_movRR_v100 : (after (withCode { State.reset with b := 0x5A } [0x78])).a = 0x5A := by decide

/-- V101. -/
theorem test_movRR_v101_same :
    let s := withCode { State.reset with b := 0x5A } [0x40]
    after s = { s with pc := 1 } := by
  decide

/-- V102. -/
theorem test_movRM_v102 :
    (after (withCode { holding 0x40 [0x9C] with l := 0x40 } [0x7E])).a = 0x9C := by
  decide

/-- V103. -/
theorem test_movRM_v103_into_h :
    (after (withCode { holding 0x40 [0x9C] with l := 0x40 } [0x66])).pair .hl = 0x9C40 := by
  decide

/-- V104. -/
theorem test_movMR_v104 :
    (after (withCode { State.reset with l := 0x40, a := 0x99 } [0x77])).byteAt 0x40 = 0x99 := by
  decide

/-- V105. -/
theorem test_movMR_v105 :
    (after (withCode { small with l := 0x40 } [0x77])).status = .faulted (.outOfBounds 0x40) := by
  decide

/-- V106. -/
theorem test_mviR_v106 :
    let t := after (withCode State.reset [0x06, 0x2A])
    t.b = 0x2A ∧ t.pc = 2 := by
  decide

/-- V107. -/
theorem test_mviM_v107 :
    (after (withCode { State.reset with l := 0x40 } [0x36, 0xFF])).byteAt 0x40 = 0xFF := by
  decide

/-- V16. -/
theorem test_dcrR_v16 :
    let t := after (withCode State.reset [0x05])
    t.b = 0xFF ∧ t.f = 0x86 := by
  decide

/-- V19. -/
theorem test_dcrR_v19_odd_parity :
    let t := after (withCode { State.reset with b := 0x2A } [0x05])
    t.b = 0x29 ∧ t.f = 0x02 := by
  decide

/-- V21. -/
theorem test_dcrM_v21 :
    let t := after (withCode { State.reset with l := 0x40 } [0x35])
    t.byteAt 0x40 = 0xFF ∧ t.f = 0x86 := by
  decide

/-- V12. -/
theorem test_inrR_v12_keeps_carry :
    let t := after (withCode { State.reset with a := 0xFF, f := 0x03 } [0x3C])
    t.a = 0x00 ∧ t.f = 0x47 := by
  decide

/-- V13. -/
theorem test_inrR_v13_no_half_carry :
    let t := after (withCode { State.reset with e := 0x0F } [0x1C])
    t.e = 0x10 ∧ t.f = 0x02 := by
  decide

/-- V14. -/
theorem test_inrM_v14 :
    let t := after (withCode { holding 0x40 [0xFF] with l := 0x40 } [0x34])
    t.byteAt 0x40 = 0x00 ∧ t.f = 0x46 := by
  decide

/-- V15. -/
theorem test_inrM_v15 :
    let s := withCode { small with l := 0x40 } [0x34]
    after s = { s with status := .faulted (.outOfBounds 0x40) } := by
  decide

/-- V31. -/
theorem test_cmpR_v31_borrow :
    let t := after (withCode { State.reset with a := 0x03, b := 0x05 } [0xB8])
    t.a = 0x03 ∧ t.f = 0x83 := by
  decide

/-- V36. -/
theorem test_cmpR_v36_unsigned :
    (after (withCode { State.reset with a := 0x7F, l := 0x80 } [0xBD])).f = 0x87 := by
  decide

/-- V38. -/
theorem test_cmpM_v38 :
    (after (withCode { holding 0x40 [0x42] with a := 0x42, l := 0x40 } [0xBE])).f = 0x46 := by
  decide

/-- V40. -/
theorem test_cpi_v40 :
    let t := after (withCode State.reset [0xFE, 0x01])
    t.f = 0x87 ∧ t.pc = 2 := by
  decide

/-- V41. -/
theorem test_cpi_v41 :
    (after (withCode { State.reset with a := 0x80 } [0xFE, 0x01])).f = 0x02 := by
  decide

/-- V108. -/
theorem test_lxi_v108 :
    let t := after (withCode State.reset [0x01, 0xCD, 0xAB])
    t.b = 0xAB ∧ t.c = 0xCD ∧ t.pc = 3 := by
  decide

/-- V109. -/
theorem test_lxi_v109_sp : (after (withCode State.reset [0x31, 0x34, 0x12])).sp = 0x1234 := by decide

/-- V116. -/
theorem test_ldax_v116 :
    (after (withCode { holding 0x15 [0x12] with c := 0x15 } [0x0A])).a = 0x12 := by
  decide

/-- V117. -/
theorem test_stax_v117 :
    (after (withCode { State.reset with e := 0x14, a := 0x55 } [0x12])).byteAt 0x14 = 0x55 := by
  decide

/-- V119. -/
theorem test_inx_v119_carries :
    let t := after (withCode { State.reset with c := 0xFF } [0x03])
    t.b = 0x01 ∧ t.c = 0x00 ∧ t.f = 0x02 := by
  decide

/-- V120. -/
theorem test_inx_v120_sp_wraps :
    (after (withCode { State.reset with sp := 0xFFFF } [0x33])).sp = 0x0000 := by
  decide

/-- V122. -/
theorem test_dcx_v122_wraps :
    let t := after (withCode State.reset [0x1B])
    t.d = 0xFF ∧ t.e = 0xFF ∧ t.f = 0x02 := by
  decide

/-- V123. -/
theorem test_dcx_v123_borrows :
    let t := after (withCode { State.reset with h := 0x01 } [0x2B])
    t.h = 0x00 ∧ t.l = 0xFF := by
  decide

/-- V50. -/
theorem test_pushRp_v50 :
    let t := after (withCode { State.reset with b := 0x12, c := 0x34, sp := 0x10 } [0xC5])
    t.byteAt 0x10 = 0x34 ∧ t.byteAt 0x11 = 0x12 ∧ t.sp = 0x12 := by
  decide

/-- V58. -/
theorem test_pushRp_v58_second_byte :
    let t := after (withCode { small with sp := 0x3F, l := 0x55 } [0xE5])
    t.status = .faulted (.outOfBounds 0x40) ∧ t.byteAt 0x3F = 0 := by
  decide

/-- V52. -/
theorem test_pushPsw_v52 :
    let t := after (withCode { State.reset with a := 0x12, f := 0xC7, sp := 0x20 } [0xF5])
    t.byteAt 0x20 = 0x12 ∧ t.byteAt 0x21 = 0xC7 ∧ t.sp = 0x22 := by
  decide

/-- V53. -/
theorem test_popRp_v53 :
    let t := after (withCode { holding 0x10 [0x34, 0x12] with sp := 0x12 } [0xD1])
    t.d = 0x12 ∧ t.e = 0x34 ∧ t.sp = 0x10 := by
  decide

/-- V57. -/
theorem test_popRp_v57_underflow :
    (after (withCode { State.reset with sp := 1 } [0xE1])).status = .faulted (.outOfBounds (-1)) := by
  decide

/-- V54. -/
theorem test_popPsw_v54 :
    let t := after (withCode { holding 0x20 [0x00, 0xFF] with sp := 0x22, a := 0x77 } [0xF1])
    t.a = 0x00 ∧ t.f = 0xD7 ∧ t.sp = 0x20 := by
  decide

/-- V55. -/
theorem test_popPsw_v55_fixed :
    let t := after (withCode { holding 0x20 [0x12, 0x28] with sp := 0x22 } [0xF1])
    t.a = 0x12 ∧ t.f = 0x02 := by
  decide

/-- V140. -/
theorem test_unimplemented_v140 :
    let s := withCode { State.reset with pc := 2 } [0x80]
    after s = { s with status := .faulted (.unimplementedOpcode 0x80) } := by
  decide

/-- V141. -/
theorem test_unimplemented_v141 :
    (after (withCode State.reset [0xCB])).status = .faulted (.unimplementedOpcode 0xCB) := by
  decide

/-- V1 to V4. -/
theorem test_fix : fix 0xFF = 0xD7 ∧ fix 0x00 = 0x02 ∧ fix 0x28 = 0x02 ∧ fix 0xD5 = 0xD7 := by decide

/-- V5. -/
theorem test_even_parity :
    [0x00, 0x01, 0x03, 0x07, 0x29, 0xFF, 0x81].map evenParity = [true, false, true, false, false, true, true] := by
  decide

/-- V144: a one-byte memory under the two fetch windows. -/
theorem test_fetch_window_v144 :
    (after { State.reset with memLen := 1 }).pc = 1 ∧
      (after { State.reset with memLen := 1, window := .three }).status = .faulted (.outOfBounds 1) := by
  decide

/-- V146: the operand byte outside memory. -/
theorem test_fetch_operand_v146 :
    (after (withCode { State.reset with pc := 1, memLen := 2 } [0x3E])).status = .faulted (.outOfBounds 2) := by
  decide

/-- V147: under `three` the fetch error comes before the opcode is looked at. -/
theorem test_fetch_order_v147 :
    (after (withCode { State.reset with pc := 1, memLen := 2 } [0x80])).status =
        .faulted (.unimplementedOpcode 0x80) ∧
      (after (withCode { State.reset with pc := 1, memLen := 2, window := .three } [0x80])).status =
        .faulted (.outOfBounds 2) := by
  decide

/-- V148: the outcome again, without a change. -/
theorem test_step_after_end_v148 :
    step { State.reset with status := .faulted (.outOfBounds 1) } = .fault (.faulted (.outOfBounds 1)) := rfl

/-- The codes of 60_exceptions.md R181. -/
theorem test_error_codes :
    (Error.unimplementedOpcode 0x80).code = 1 ∧ (Error.invalidRegisterPairSelector 2 "LDAX").code = 2 ∧
      (Error.outOfBounds (-2)).code = 3 ∧ (Error.missingPortHandler .inward).code = 4 ∧ Fault.halted.code = 5 := by
  decide

/-- V130: pc moves past IN, whatever the hook answers. -/
theorem test_in_v130_advances : (after (withCode at200 [0xDB, 0x01])).pc = 0x202 := rfl

/-- V131 and V137: the output hook sees the port and A. -/
theorem test_out_v131_logs :
    (after (withCode { State.reset with a := 0x5A } [0xD3, 0xFF])).ports = [.write 0xFF 0x5A] := rfl

/-- P2 of section 3: file construction at 0x100. -/
theorem test_construct_p2 :
    ((State.construct [0x06, 0x03, 0x05] 0x100 ⟨⟨0, 0, 0, 0, 0, 0, 0, 0⟩, .exact, true, true⟩).map
      (fun s => (s.pc, s.memLen, s.byteAt 0xFF, s.byteAt 0x100, s.byteAt 0x102))) =
      some (0x100, 0x103, 0x00, 0x06, 0x05) := by
  decide

/-- The host's two questions on one word: the decoder reads it, and a step from reset runs it. -/
theorem test_with_fetch_word :
    decodeTableWord 16 0x2A06 = some (.mviR .b 0x2A) ∧ (after (State.reset.withFetchWord 16 0x2A06)).b = 0x2A := by
  decide

/-- The word is placed in a state at the end of its memory too. -/
theorem test_with_fetch_word_grows :
    (after ({ small with pc := 0x40 }.withFetchWord 16 0x2A06)).b = 0x2A := by
  decide

/-- Writing what an unlisted address reads as removes the entry. -/
theorem test_memory_canonical :
    (Memory.write (Memory.write (Memory.write [] 5 0x11) 3 0x22) 5 0x00) = [(3, 0x22)] ∧
      Memory.wf (Memory.write (Memory.write [] 5 0x11) 3 0x22) := by
  decide

/-- A list out of order, and one that lists the unlisted byte, are not canonical. -/
theorem test_memory_not_canonical : ¬ Memory.wf [(5, 0x11), (3, 0x22)] ∧ ¬ Memory.wf [(3, 0x00)] := by decide

/-- The written forms of 30_encoding.md R93. -/
theorem test_written :
    (Instr.mviR .b 0x2A).written = some "MVI B,0x2A" ∧ (Instr.dcrR .b).written = some "DCR B" ∧
      (Instr.jmp 0).written = some "JMP 0x0000" ∧ Instr.pushPsw.written = some "PUSH PSW" ∧
      (Instr.movRM .a).written = some "MOV A,M" ∧ (Instr.lxi .sp 0x0018).written = some "LXI SP,0x0018" ∧
      (Instr.out 0x01).written = some "OUT 0x01" ∧ (Instr.unimplemented 0x80).written = none := by decide

/-! Witnesses: a state and operands that meet the hypotheses of each obligation, clause by clause, at the ends of their
ranges. -/

/-- SP at an address of the state after reset. -/
def atSp (sp : Word) : State := { State.reset with sp := sp }

/-- SP at an address of a memory of 0x40 bytes. -/
def smallSp (sp : Word) : State := { small with sp := sp }

/-- pc at an address of the state after reset. -/
def atPc (pc : Word) : State := { State.reset with pc := pc }

/-- HL, BC and DE just past a memory of 0x40 bytes. -/
def smallPast : State := { small with b := 0, c := 0x40, d := 0, e := 0x40, h := 0, l := 0x40 }

theorem test_witness_ByteAccessIsBoundsChecked :
    0xFFFF < State.reset.memLen ∧ State.reset.memLen ≤ 0x10000 ∧ State.reset.mem.wf := by decide

theorem test_witness_WordAccessIsLittleEndian :
    0xFFFE + 1 < State.reset.memLen ∧ State.reset.memLen ≤ 0x10000 ∧
      (0xFFFF < State.reset.memLen ∧ State.reset.memLen ≤ 0xFFFF + 1) ∧ State.reset.mem.wf := by decide

theorem test_witness_PushGrowsUpward :
    ((atSp 0xFFFD).mem.wf ∧ (atSp 0xFFFD).sp.toNat + 1 < (atSp 0xFFFD).memLen ∧ (atSp 0xFFFD).sp.toNat + 2 ≤ 0xFFFF) ∧
      (smallSp 0x40).memLen ≤ (smallSp 0x40).sp.toNat ∧
      ((smallSp 0x3F).sp.toNat < (smallSp 0x3F).memLen ∧ (smallSp 0x3F).memLen ≤ (smallSp 0x3F).sp.toNat + 1) ∧
      ((atSp 0xFFFE).sp.toNat + 1 < (atSp 0xFFFE).memLen ∧ 0xFFFF < (atSp 0xFFFE).sp.toNat + 2) := by decide

theorem test_witness_PopReadsBelowStackPointer :
    (2 ≤ (smallSp 0x40).sp.toNat ∧ (smallSp 0x40).sp.toNat - 1 < (smallSp 0x40).memLen) ∧
      (smallSp 1).sp.toNat < 2 ∧
      (2 ≤ (smallSp 0x42).sp.toNat ∧ (smallSp 0x42).memLen ≤ (smallSp 0x42).sp.toNat - 2) ∧
      (2 ≤ (smallSp 0x41).sp.toNat ∧ (smallSp 0x41).sp.toNat - 2 < (smallSp 0x41).memLen ∧
        (smallSp 0x41).memLen ≤ (smallSp 0x41).sp.toNat - 1) := by decide

theorem test_witness_PopReadsBelowStackPointer_after_push :
    (atSp 0xFFFD).mem.wf ∧ ∃ t, (atSp 0xFFFD).push 0x1234 = .ok t := ⟨by decide, _, rfl⟩

theorem test_witness_PswIsFlagsOverAccumulator :
    State.reset.mem.wf ∧ ∃ t, State.reset.memWriteWord 0xFFFE State.reset.psw = .ok t := ⟨by decide, _, rfl⟩

theorem test_witness_ParityCountsOneBits : szpa.p = true := by decide

theorem test_witness_DecodeOfEncodeGivesInstructionBack :
    (Instr.stax .de).wf = true ∧ (Instr.unimplemented 0xFF).wf = true := by decide

theorem test_witness_EncodeOfDecodeGivesBytesBack :
    decode [0x3A, 0x15, 0x00, 0x76] = .ok (.lda 0x0015, [0x76]) := rfl

theorem test_witness_PatternOrderSettlesTheOverlaps :
    (∃ p ∈ patterns, p.hits 0x76 = true ∧ p.priority = 2 ∧
      ∀ q ∈ patterns, q.hits 0x76 = true → p.priority ≤ q.priority) ∧
      (∀ p ∈ patterns, p.hits 0xCB = false) :=
  ⟨⟨⟨2, 0xFF, 0x76, fun _ => .op .hlt⟩, by simp [patterns, patterns2], by decide, rfl, by decide⟩, by decide⟩

theorem test_witness_UnimplementedOpcodesAreTheListed :
    (0x07 ∈ unimplementedOpcodes ∧ 0xFF ∈ unimplementedOpcodes) ∧ 0x00 ∉ unimplementedOpcodes := by decide

theorem test_witness_UnimplementedOpcodesAreTheListed_decode :
    (0xFE : Byte) ∉ unimplementedOpcodes ∧ decode [0xFE, 0x12] = .ok (.cpi 0x12, []) := ⟨by decide, rfl⟩

theorem test_witness_InvalidPairSelectorIsUnreachable :
    decode [0x1A] = .ok (.ldax .de, []) ∧ ∃ t, step (withCode State.reset [0x32, 0x14, 0x00]) = .next t :=
  ⟨rfl, _, rfl⟩

theorem test_witness_StepRunsDecodedInstruction_exact :
    (atPc 0xFFFF).status = .running ∧ decode (atPc 0xFFFF).windowBytes = .ok (.nop, [0x00, 0x00]) ∧
      (atPc 0xFFFF).pc.toNat + (if (atPc 0xFFFF).window = .exact then Instr.nop.length else 3) ≤ (atPc 0xFFFF).memLen :=
  ⟨rfl, rfl, by decide⟩

theorem test_witness_StepRunsDecodedInstruction_three :
    let s : State := { atPc 0xFFFD with window := .three }
    s.status = .running ∧ decode s.windowBytes = .ok (.nop, [0x00, 0x00]) ∧
      s.pc.toNat + (if s.window = .exact then Instr.nop.length else 3) ≤ s.memLen :=
  ⟨rfl, rfl, by decide⟩

theorem test_witness_FetchOutsideMemoryTraps :
    small.status = .running ∧
      (let s : State := { small with pc := 0x40 }
       s.memLen ≤ s.pc.toNat) ∧
      (let s := withCode { small with pc := 0x3F } [0x3E]
       s.window = .exact ∧ s.memLen = s.pc.toNat + 1 ∧ 2 ≤ (decodeHead (s.byteAt s.pc.toNat)).length) ∧
      (let s := withCode { small with pc := 0x3E } [0xC3, 0x00]
       s.window = .exact ∧ s.memLen = s.pc.toNat + 2 ∧ (decodeHead (s.byteAt s.pc.toNat)).length = 3) ∧
      (let s : State := { small with pc := 0x3F, window := .three }
       s.window = .three ∧ s.memLen = s.pc.toNat + 1) ∧
      (let s : State := { small with pc := 0x3E, window := .three }
       s.window = .three ∧ s.memLen = s.pc.toNat + 2) := by decide

theorem test_witness_StepAfterEndRepeatsOutcome :
    State.reset.haltedNow.status = .halted ∧
      (State.reset.faultedWith (.outOfBounds 1)).status = .faulted (.outOfBounds 1) := by decide

theorem test_witness_RunningStepAlwaysAnswers : State.reset.status = .running := by decide

theorem test_witness_FailingStepChangesOnlyStatus :
    ∃ t, step (withCode State.reset [0x80]) = .next t ∧ t.status ≠ .running := ⟨_, rfl, by decide⟩

theorem test_witness_InstructionCompletesOrRaises :
    (∃ t, exec .nop State.reset = .next t) ∧ (∃ t, exec .hlt State.reset = .next t) ∧
      ∃ t, exec (.unimplemented 0x80) State.reset = .next t := ⟨⟨_, rfl⟩, ⟨_, rfl⟩, ⟨_, rfl⟩⟩

theorem test_witness_StepKeepsInvariant : State.reset.Inv ∧ ∃ t, step State.reset = .next t := ⟨by decide, _, rfl⟩

theorem test_witness_StepKeepsParameters : ∃ t, step State.reset = .next t := ⟨_, rfl⟩

theorem test_witness_AuxiliaryCarryIsNeverComputed :
    (∃ t, exec (.inrR .b) State.reset = .next t ∧ Instr.inrR .b ≠ .popPsw ∧ usesPort (.inrR .b) = false) ∧
      (∃ t, exec .popPsw (atSp 2) = .next t ∧ t.status = (atSp 2).status ∧ (atSp 2).status = .running) ∧
      ∃ s, State.construct [0x76] 0xFFFF ⟨⟨0, 0, 0, 0, 0, 0, 0, 0xFF⟩, .three, false, false⟩ = some s :=
  ⟨⟨_, rfl, by decide, rfl⟩, ⟨_, rfl, rfl, rfl⟩, _, rfl⟩

theorem test_witness_RegisterFrame : ∃ t, exec (.mviR .b 0x2A) State.reset = .next t := ⟨_, rfl⟩

theorem test_witness_StackPointerFrame :
    ∃ t, exec (.lxi .hl 0x1234) State.reset = .next t ∧ writesSp (.lxi .hl 0x1234) = false := ⟨_, rfl, rfl⟩

theorem test_witness_FlagFrame :
    ∃ t, exec (.inrR .b) State.reset = .next t ∧ State.reset.f = fix State.reset.f ∧ 0 ∉ flagBits (.inrR .b) :=
  ⟨_, rfl, by decide, by decide⟩

theorem test_witness_MemoryFrame :
    (∃ t, exec (.sta 0xFFFF) State.reset = .next t ∧ usesPort (.sta 0xFFFF) = false) ∧
      ∃ t, exec (.inp 0x01) small = .next t ∧ usesPort (.inp 0x01) = true ∧ small.memLen ≤ 0x40 :=
  ⟨⟨_, rfl, rfl⟩, _, rfl, rfl, by decide⟩

theorem test_witness_PortFrame :
    (∃ t, exec .nop State.reset = .next t ∧ usesPort .nop = false) ∧
      ∃ t, exec (.out 0x01) State.reset = .next t ∧ usesPort (.out 0x01) = true ∧ State.reset.status = .running ∧
        t.status = .running :=
  ⟨⟨_, rfl, rfl⟩, _, rfl, rfl, rfl, rfl⟩

/-- The premise of each PastTop clause, for instructions of 1, 2 and 3 bytes. -/
theorem test_witness_PastTop :
    0xFFFF < (atPc 0xFFFF).pc.toNat + 1 ∧ 0xFFFF < (atPc 0xFFFE).pc.toNat + 2 ∧
      0xFFFF < (atPc 0xFFFD).pc.toNat + 3 := by decide

theorem test_witness_NopChangesOnlyPc : (atPc 0xFFFE).pc.toNat + 1 ≤ 0xFFFF := by decide

theorem test_witness_ConditionalJumpsFollowTheirFlag :
    (flagZ 0x02 = false ∧ flagZ 0x42 = true ∧ flagC 0x02 = false ∧ flagC 0x03 = true ∧ flagP 0x02 = false ∧
      flagP 0x06 = true ∧ flagS 0x02 = false ∧ flagS 0x82 = true) ∧
      (condHolds (atPc 0xFFFC).f .z = false ∧ (atPc 0xFFFC).pc.toNat + 3 ≤ 0xFFFF) ∧
      (condHolds (atPc 0xFFFD).f .z = false ∧ 0xFFFF < (atPc 0xFFFD).pc.toNat + 3) := by decide

theorem test_witness_CallPushesReturnAddress :
    let s : State := { atPc 0xFFFC with sp := 0xFFFD }
    (s.mem.wf ∧ s.pc.toNat + 3 ≤ 0xFFFF ∧ s.sp.toNat + 1 < s.memLen ∧ s.sp.toNat + 2 ≤ 0xFFFF) ∧
      0xFFFF < (atPc 0xFFFD).pc.toNat + 3 := by decide

theorem test_witness_CallPushesReturnAddress_raises :
    (atSp 0xFFFE).pc.toNat + 3 ≤ 0xFFFF ∧
      (atSp 0xFFFE).push (BitVec.ofNat 16 ((atSp 0xFFFE).pc.toNat + 3)) = .error (.outOfBounds 0x10000) :=
  ⟨by decide, rfl⟩

theorem test_witness_RetPopsIntoPc : 2 ≤ (smallSp 0x40).sp.toNat ∧ (smallSp 0x40).sp.toNat - 1 < (smallSp 0x40).memLen := by
  decide

theorem test_witness_RetPopsIntoPc_raises : State.reset.pop = .error (.outOfBounds (-2)) := rfl

theorem test_witness_CallThenRetIsNetZero :
    State.reset.mem.wf ∧ State.reset.pc.toNat + 3 ≤ 0xFFFF ∧ State.reset.sp.toNat + 1 < State.reset.memLen ∧
      State.reset.sp.toNat + 2 ≤ 0xFFFF := by decide

theorem test_witness_TargetsAreCheckedByTheNextFetch :
    condHolds State.reset.f .nz = true ∧
      (∃ t, exec (.call 0xF000) State.reset = .next t ∧ State.reset.status = .running ∧ t.status = .running) ∧
      (∃ w t u, (atSp 2).pop = .ok (w, u) ∧ exec .ret (atSp 2) = .next t) ∧
      (small.status = .running ∧ small.memLen ≤ (0x40 : Word).toNat) ∧
      (small.status = .running ∧ (0x3D : Word).toNat + 3 ≤ small.memLen ∧
        decode (small.setPc 0x3D).windowBytes = .ok (.nop, [0x00, 0x00])) :=
  ⟨by decide, ⟨_, rfl, rfl, rfl⟩, ⟨_, _, _, rfl, rfl⟩, by decide, rfl, by decide, rfl⟩

theorem test_witness_AdvancePastTopTraps :
    (advancesPc .nop = true ∧ Instr.nop.wf = true ∧ 0xFFFF < (atPc 0xFFFF).pc.toNat + Instr.nop.length) ∧
      (advancesPc (.lda 0) = true ∧ (Instr.lda 0).wf = true ∧
        0xFFFF < (atPc 0xFFFD).pc.toNat + (Instr.lda 0).length) := by decide

theorem test_witness_PushInstructionsStoreTheWord :
    let s : State := { atPc 0xFFFE with sp := 0xFFFD }
    s.mem.wf ∧ s.pc.toNat + 1 ≤ 0xFFFF ∧ s.sp.toNat + 1 < s.memLen ∧ s.sp.toNat + 2 ≤ 0xFFFF := by decide

theorem test_witness_PushInstructionsStoreTheWord_raises :
    (atSp 0xFFFE).pc.toNat + 1 ≤ 0xFFFF ∧
      (atSp 0xFFFE).push ((atSp 0xFFFE).pair .hl) = .error (.outOfBounds 0x10000) ∧
      (atSp 0xFFFE).push (atSp 0xFFFE).psw = .error (.outOfBounds 0x10000) := ⟨by decide, rfl, rfl⟩

theorem test_witness_PopInstructionsLoadTheWord :
    (smallSp 0x40).pc.toNat + 1 ≤ 0xFFFF ∧ 2 ≤ (smallSp 0x40).sp.toNat ∧
      (smallSp 0x40).sp.toNat - 1 < (smallSp 0x40).memLen := by decide

theorem test_witness_PopInstructionsLoadTheWord_raises :
    (smallSp 1).pc.toNat + 1 ≤ 0xFFFF ∧ (smallSp 1).pop = .error (.outOfBounds (-1)) := ⟨by decide, rfl⟩

theorem test_witness_PushThenPopMovesThePair :
    let s : State := { atPc 0xFFFD with sp := 0xFFFD }
    s.mem.wf ∧ s.pc.toNat + 2 ≤ 0xFFFF ∧ s.sp.toNat + 1 < s.memLen ∧ s.sp.toNat + 2 ≤ 0xFFFF := by decide

theorem test_witness_IncDecRegister : (atPc 0xFFFE).pc.toNat + 1 ≤ 0xFFFF := by decide

theorem test_witness_IncDecMemory :
    let s : State := { atPc 0xFFFE with h := 0xFF, l := 0xFF }
    s.mem.wf ∧ s.pc.toNat + 1 ≤ 0xFFFF ∧ (s.pair .hl).toNat < s.memLen := by decide

/-- The premises of each clause where HL lies outside memory, for instructions of 1 and 2 bytes: IncDecMemory,
CompareSetsFlagsOnly, MovesLoadTheRegister, StoresWriteOneByte. -/
theorem test_witness_operand_outside_memory :
    let s : State := { smallPast with pc := 0xFFFD }
    s.pc.toNat + 1 ≤ 0xFFFF ∧ s.pc.toNat + 2 ≤ 0xFFFF ∧ s.memLen ≤ (s.pair .hl).toNat := by decide

theorem test_witness_CompareSetsFlagsOnly :
    let s : State := { atPc 0xFFFE with h := 0xFF, l := 0xFF }
    (s.pc.toNat + 1 ≤ 0xFFFF ∧ (s.pair .hl).toNat < s.memLen) ∧ (atPc 0xFFFD).pc.toNat + 2 ≤ 0xFFFF := by decide

theorem test_witness_MovesLoadTheRegister :
    let s : State := { atPc 0xFFFE with h := 0xFF, l := 0xFF }
    (s.pc.toNat + 1 ≤ 0xFFFF ∧ (s.pair .hl).toNat < s.memLen) ∧ (atPc 0xFFFD).pc.toNat + 2 ≤ 0xFFFF := by decide

theorem test_witness_StoresWriteOneByte :
    let s : State := { State.reset with h := 0xFF, l := 0xFF }
    (s.mem.wf ∧ s.pc.toNat + 3 ≤ 0xFFFF ∧ (s.pair .hl).toNat < s.memLen ∧ (0xFFFF : Word).toNat < s.memLen) ∧
      (smallPast.pc.toNat + 3 ≤ 0xFFFF ∧ smallPast.memLen ≤ (0x40 : Word).toNat) := by decide

theorem test_witness_LdaLoadsTheAccumulator :
    ((atPc 0xFFFC).pc.toNat + 3 ≤ 0xFFFF ∧ (0xFFFF : Word).toNat < (atPc 0xFFFC).memLen) ∧
      (smallPast.pc.toNat + 3 ≤ 0xFFFF ∧ smallPast.memLen ≤ (0x40 : Word).toNat) := by decide

theorem test_witness_IndirectAccumulatorMoves :
    (let s : State := { atPc 0xFFFE with b := 0xFF, c := 0xFF, d := 0xFF, e := 0xFF }
     s.mem.wf ∧ s.pc.toNat + 1 ≤ 0xFFFF ∧ (s.pair .bc).toNat < s.memLen ∧ (s.pair .de).toNat < s.memLen) ∧
      (smallPast.pc.toNat + 1 ≤ 0xFFFF ∧ smallPast.memLen ≤ (smallPast.pair .bc).toNat ∧
        smallPast.memLen ≤ (smallPast.pair .de).toNat) := by decide

theorem test_witness_DirectWordMovesHl :
    ((atPc 0xFFFC).pc.toNat + 3 ≤ 0xFFFF ∧ (0xFFFE : Word).toNat + 1 < (atPc 0xFFFC).memLen ∧
        (atPc 0xFFFC).mem.wf) ∧
      (small.pc.toNat + 3 ≤ 0xFFFF ∧ small.memLen ≤ (0x40 : Word).toNat) ∧
      small.memLen = (0x3F : Word).toNat + 1 := by decide

theorem test_witness_LxiAndSphlLoadTheWord :
    (atPc 0xFFFC).pc.toNat + 3 ≤ 0xFFFF ∧ (atPc 0xFFFE).pc.toNat + 1 ≤ 0xFFFF := by decide

theorem test_witness_InxDcxWrap : (atPc 0xFFFE).pc.toNat + 1 ≤ 0xFFFF ∧ PairSel.bc ≠ .sp := by decide

theorem test_witness_InTakesTheHooksByte :
    (atPc 0xFFFD).pc.toNat + 2 ≤ 0xFFFF ∧ (atPc 0xFFFD).inHook = true ∧
      State.inHook { atPc 0xFFFD with inHook := false } = false := by decide

theorem test_witness_OutGivesTheHookTheAccumulator :
    (atPc 0xFFFD).pc.toNat + 2 ≤ 0xFFFF ∧ (atPc 0xFFFD).outHook = true ∧
      State.outHook { atPc 0xFFFD with outHook := false } = false := by decide

theorem test_witness_HookStoresLandInOrder : Memory.wf [] ∧ 0x3F < 0x40 ∧ 0x40 ≤ 0x40 := by decide

theorem test_witness_MissingHookTraps :
    let s : State := { atPc 0xFFFD with inHook := false, outHook := false }
    s.pc.toNat + 2 ≤ 0xFFFF ∧ s.inHook = false ∧ s.outHook = false := by decide

theorem test_witness_ConstructionLaysOutMemory :
    (0xFFFF + [(0x76 : Byte)].length ≤ 65536 ∧ 0xFFFF < 65536) ∧ [(0x76 : Byte)][0]? = some 0x76 ∧
      65536 < 0xFFFF + [(0x76 : Byte), 0x00].length := by decide

/-- notes/assumptions/14.md: the empty image is constructed at base 0xFFFF and refused at base 65536. -/
theorem test_construct_empty_image :
    let x : Launch := ⟨⟨0, 0, 0, 0, 0, 0, 0, 0⟩, .exact, true, true⟩
    (State.construct [] 0xFFFF x).map (fun s => s.pc) = some 0xFFFF ∧ State.construct [] 65536 x = none := by decide

end Sys2Proof.Tests
end

section
/-! SUPPORT. The registers, the pairs, the flags and the PSW (spec/10_state.md R22 to R35): their rules beyond Laws/, and the
statements about them. -/

namespace Sys2Proof.Machine

/-! ### Registers and pairs -/

/-- A register write touches no other register. -/
theorem State.setReg_sameRegsBut (s : State) (r : Reg) (v : Byte) : SameRegsBut [r] s (s.setReg r v) :=
  fun q hq => s.reg_setReg_other r q v (by simpa using hq)

theorem pairHigh_ne_pairLow (p : Pair) : pairHigh p ≠ pairLow p := by
  cases p <;> decide

@[simp] theorem State.pair_setPair (s : State) (p : Pair) (w : Word) : (s.setPair p w).pair p = w := by
  obtain ⟨hHigh, hLow, -⟩ := s.setPair_regs p w
  rw [State.pair, hHigh, hLow, pairOf_split]

theorem State.pair_setReg_pairHigh (s : State) (p : Pair) (v : Byte) :
    (s.setReg (pairHigh p) v).pair p = pairOf v (s.reg (pairLow p)) := by
  rw [State.pair, State.reg_setReg_same, State.reg_setReg_other _ _ _ _ (pairHigh_ne_pairLow p).symm]

theorem State.pair_setReg_pairLow (s : State) (p : Pair) (v : Byte) :
    (s.setReg (pairLow p) v).pair p = pairOf (s.reg (pairHigh p)) v := by
  rw [State.pair, State.reg_setReg_same, State.reg_setReg_other _ _ _ _ (pairHigh_ne_pairLow p)]

theorem State.pair_toNat (s : State) (p : Pair) :
    (s.pair p).toNat = (s.reg (pairHigh p)).toNat * 256 + (s.reg (pairLow p)).toNat :=
  pairOf_toNat _ _

/-! ### Flags -/

@[simp] theorem flagAC_fix (f : Byte) : flagAC (fix f) = flagAC f := fix_getLsbD f 4

/-- Fixing a byte moves none of the five flags (R27). -/
theorem fix_flags (f : Byte) :
    flagS (fix f) = flagS f ∧ flagZ (fix f) = flagZ f ∧ flagAC (fix f) = flagAC f ∧ flagP (fix f) = flagP f ∧
      flagC (fix f) = flagC f :=
  ⟨fix_getLsbD f 7, fix_getLsbD f 6, flagAC_fix f, fix_getLsbD f 2, fix_getLsbD f 0⟩

/-- A condition depends on bits 7, 6, 2 and 0 of the flags byte alone. -/
theorem condHolds_congr (f g : Byte) (cc : Cond) (h : ∀ i ∈ [7, 6, 2, 0], f.getLsbD i = g.getLsbD i) :
    condHolds f cc = condHolds g cc := by
  have hS : flagS f = flagS g := h 7 (by decide)
  have hZ : flagZ f = flagZ g := h 6 (by decide)
  have hP : flagP f = flagP g := h 2 (by decide)
  have hC : flagC f = flagC g := h 0 (by decide)
  cases cc <;> simp only [condHolds, hS, hZ, hP, hC]

theorem condHolds_putBit_ac (f : Byte) (v : Bool) (cc : Cond) : condHolds (putBit f 4 v) cc = condHolds f cc := by
  refine condHolds_congr _ _ cc fun i hi => ?_
  have hne : i ≠ 4 := fun h => absurd (h ▸ hi) (by decide)
  rw [putBit_getLsbD f 4 i v (by decide), if_neg hne]

section
variable (f result : Byte) (carry : Bool) (which : FlagSet)

theorem flagS_updateFlags :
    flagS (updateFlags f result carry which) = if which.s then result.getLsbD 7 else flagS f :=
  (updateFlags_getLsbD f result carry which 7).trans (by simp [flagS])

theorem flagZ_updateFlags :
    flagZ (updateFlags f result carry which) = if which.z then decide (result = 0) else flagZ f :=
  (updateFlags_getLsbD f result carry which 6).trans (by simp [flagZ, beq_eq_decide])

theorem flagP_updateFlags :
    flagP (updateFlags f result carry which) = if which.p then evenParity result else flagP f :=
  (updateFlags_getLsbD f result carry which 2).trans (by simp [flagP])

theorem flagC_updateFlags :
    flagC (updateFlags f result carry which) = if which.c then carry else flagC f :=
  (updateFlags_getLsbD f result carry which 0).trans (by simp [flagC])

@[simp] theorem flagAC_updateFlags : flagAC (updateFlags f result carry which) = flagAC f :=
  (updateFlags_getLsbD f result carry which 4).trans (by simp [flagAC])

@[simp] theorem fix_updateFlags : fix (updateFlags f result carry which) = updateFlags f result carry which :=
  fix_fix _

end

/-! ### Parity -/

theorem evenParity_iff_popcount (v : Byte) : evenParity v = true ↔ popcount v % 2 = 0 := beq_iff_eq

theorem popcount_eq_length_filter (v : Byte) :
    popcount v = ((List.range 8).filter (fun i => v.getLsbD i)).length :=
  List.countP_eq_length_filter

/-- The 1 bits and the 0 bits of a byte are 8 together, so their counts have one parity. -/
theorem popcount_add_zeros (v : Byte) :
    popcount v + ((List.range 8).filter (fun i => !v.getLsbD i)).length = 8 := by
  rw [popcount_eq_length_filter, ← List.length_eq_length_filter_add, List.length_range]

/-! ### The PSW -/

@[simp] theorem State.hi8_psw (s : State) : hi8 s.psw = fix s.f := hi8_pairOf _ _

@[simp] theorem State.lo8_psw (s : State) : lo8 s.psw = s.a := lo8_pairOf _ _

theorem State.setPsw_sameRegsBut (s : State) (w : Word) : SameRegsBut [.a] s (s.setPsw w) := fun q hq =>
  (State.reg_setFlags _ _ q).trans (s.setReg_sameRegsBut .a (lo8 w) q hq)

/-! ### What an instruction does to F -/

/-- An instruction that is not POP PSW and calls no hook keeps F, or leaves in it a flag update of it. -/
theorem exec_f (i : Instr) (s t : State) (h : exec i s = .next t) (hpsw : i ≠ .popPsw) (hport : usesPort i = false) :
    t.f = s.f ∨ ∃ result carry which, t.f = updateFlags s.f result carry which := by
  rcases exec_effect i s t h with ⟨e, rfl⟩ | ⟨-, rfl⟩ | ⟨pc', heff⟩
  · exact .inl rfl
  · exact .inl rfl
  · cases i
    case popPsw => exact absurd rfl hpsw
    case inp | out => cases hport
    case hlt | unimplemented => exact heff.elim
    case inrR r | dcrR r =>
      obtain ⟨v, rfl⟩ := heff
      exact .inr ⟨v, false, szpa, by simp⟩
    case inrM | dcrM =>
      obtain ⟨v, -, rfl⟩ := heff
      exact .inr ⟨v, false, szpa, by simp⟩
    case cmpR | cmpM | cpi =>
      obtain ⟨v, rfl⟩ := heff
      exact .inr ⟨s.a - v, decide (s.a.toNat < v.toNat), szpca, by simp [State.compare]⟩
    all_goals left
    case nop | jmp | jnz | jz | jnc | jc | jpo | jpe | jp | jm | sphl | lda | movRR | movRM | mviR =>
      rw [heff]; simp
    case sta | shld | movMR | mviM =>
      obtain ⟨-, rfl⟩ := heff; simp
    case ret | lhld | lxi | inx | dcx | ldax =>
      obtain ⟨w, rfl⟩ := heff; simp
    case popRp =>
      obtain ⟨w, sp', rfl⟩ := heff; simp
    case call | pushRp | pushPsw =>
      obtain ⟨w, sp', -, rfl⟩ := heff; simp
    case stax =>
      obtain ⟨q, -, -, rfl⟩ := heff; simp

/-- A POP PSW that completes loads F from the byte below SP. -/
theorem execPopPsw_f (s t : State) (h : exec .popPsw s = .next t) (hrun : s.status = .running)
    (hst : t.status = s.status) : t.f = fix (s.byteAt (s.sp.toNat - 1)) := by
  rcases exec_effect .popPsw s t h with ⟨e, rfl⟩ | ⟨hne, -⟩ | ⟨pc', sp', -, rfl⟩
  · exact absurd (hst.trans hrun) (by simp [State.faultedWith])
  · cases hne
  · rw [State.setPc_f, State.setPsw_f, hi8_pairOf]
    rfl

theorem State.construct_f (image : List Byte) (base : Nat) (x : Launch) (s : State)
    (h : State.construct image base x = some s) : s.f = fix x.init.f := by
  unfold State.construct at h
  split at h
  · cases h; rfl
  · cases h

/-! ### The statements -/

/-- Settles O3: from `State.setPair_regs`, and the pair read of the two registers it names. -/
theorem pairWriteSplitsTheWord : Obligations.PairWriteSplitsTheWord :=
  ⟨fun s w => s.setPair_regs .bc w, fun s w => s.setPair_regs .de w, fun s w => s.setPair_regs .hl w,
    State.pair_setPair, fun s p v => ⟨s.pair_setReg_pairHigh p v, s.pair_setReg_pairLow p v⟩,
    fun w => ⟨hi8_toNat w, lo8_toNat w⟩⟩

/-- Settles O4: each selector by its row, and AC by `condHolds_putBit_ac`. -/
theorem conditionsTestTheirFlag : Obligations.ConditionsTestTheirFlag := fun f =>
  ⟨rfl, rfl, rfl, rfl, rfl, rfl, rfl, rfl, condHolds_putBit_ac f⟩

/-- Settles O5, one flag after another. -/
theorem updateFlagsRecomputesTheRequested : Obligations.UpdateFlagsRecomputesTheRequested := fun f result carry which =>
  ⟨flagS_updateFlags f result carry which, flagZ_updateFlags f result carry which,
    flagP_updateFlags f result carry which, flagC_updateFlags f result carry which,
    flagAC_updateFlags f result carry which, (fix_updateFlags f result carry which).symm⟩

/-- Settles O6: parity is that of `popcount`, and the 0 bits are the rest of the 8. -/
theorem parityCountsOneBits : Obligations.ParityCountsOneBits := by
  refine ⟨fun v => ?_, fun v => ?_, rfl, rfl, rfl, rfl, fun f result carry which hp => ?_⟩
  · rw [evenParity_iff_popcount, popcount_eq_length_filter]
  · have h8 := popcount_add_zeros v
    rw [evenParity_iff_popcount]
    omega
  · rw [flagP_updateFlags, if_pos hp]

/-- Settles O7: the PSW's two bytes, stored little-endian, and what loading them sets. -/
theorem pswIsFlagsOverAccumulator : Obligations.PswIsFlagsOverAccumulator := by
  refine ⟨fun s => ⟨s.hi8_psw, s.lo8_psw⟩, fun s t addr hm h => ?_,
    fun s w => ⟨rfl, rfl, s.setPsw_sameRegsBut w⟩, fun s w => fix_flags (hi8 w)⟩
  obtain ⟨-, rfl⟩ := s.memWriteWord_ok t addr s.psw h
  simpa using s.byteAt_writeWord hm addr s.psw

/-- Settles O28: by what an instruction does to F (`exec_f`), POP PSW and construction apart. -/
theorem auxiliaryCarryIsNeverComputed : Obligations.AuxiliaryCarryIsNeverComputed := by
  refine ⟨fun i s t h hpsw hport => ?_, flagAC_updateFlags, fun s t h hst hrun => ?_, fun image base x s h => ?_⟩
  · rcases exec_f i s t h hpsw hport with hf | ⟨result, carry, which, hf⟩
    · rw [hf]
    · rw [hf, flagAC_updateFlags]
  · rw [execPopPsw_f s t h hrun hst, flagAC_fix]
    rfl
  · rw [State.construct_f image base x s h, flagAC_fix]

/-- Settles O1: the selector table, the operand reads and writes, and selector 6 in each family's opcode. -/
theorem registerSelectorNamesOperand : Obligations.RegisterSelectorNamesOperand :=
  ⟨⟨rfl, rfl, rfl, rfl, rfl, rfl, rfl, rfl⟩, fun _ _ => rfl, fun _ => rfl,
    fun s r v => ⟨s.setReg r v, rfl, s.reg_setReg_same r v, s.setReg_sameRegsBut r v⟩, fun _ _ => rfl,
    fun _ => ⟨rfl, rfl, rfl, rfl, rfl, rfl⟩⟩

/-- Settles O2: `State.pair_toNat` at each pair. -/
theorem pairReadIsTheTwoRegisters : Obligations.PairReadIsTheTwoRegisters := fun s =>
  ⟨s.pair_toNat .bc, s.pair_toNat .de, s.pair_toNat .hl⟩

end Sys2Proof.Machine
end

section
/-! SUPPORT. Byte and word accesses (spec/20_memory.md R52 to R55): what each answers in each range of the address, and the
statements about them. -/

namespace Sys2Proof.Machine

/-! ### Byte accesses -/

section
variable (s : State) (addr : Nat) (v : Byte)

theorem State.memRead_of_lt (h : addr < s.memLen) : s.memRead addr = .ok (s.byteAt addr) :=
  (s.memRead_eq addr).trans (if_pos h)

theorem State.memRead_of_ge (h : s.memLen ≤ addr) : s.memRead addr = .error (.outOfBounds addr) :=
  (s.memRead_eq addr).trans (if_neg (Nat.not_lt.2 h))

theorem State.memWrite_of_lt (h : addr < s.memLen) : s.memWrite addr v = .ok (s.setMem (s.mem.write addr v)) :=
  (s.memWrite_eq addr v).trans (if_pos h)

theorem State.memWrite_of_ge (h : s.memLen ≤ addr) : s.memWrite addr v = .error (.outOfBounds addr) :=
  (s.memWrite_eq addr v).trans (if_neg (Nat.not_lt.2 h))

end

/-! ### Word accesses: both addresses inside, the first outside, only the second outside -/

section
variable (s : State) (addr : Nat) (w : Word)

theorem State.memReadWord_of_lt (h : addr + 1 < s.memLen) :
    s.memReadWord addr = .ok (pairOf (s.byteAt (addr + 1)) (s.byteAt addr)) :=
  (s.memReadWord_eq addr).trans (if_pos h)

theorem State.memReadWord_of_ge (h : s.memLen ≤ addr) : s.memReadWord addr = .error (.outOfBounds addr) := by
  rw [State.memReadWord_eq, if_neg (by omega), if_neg (by omega)]

theorem State.memReadWord_of_second_ge (h : addr < s.memLen) (h' : s.memLen ≤ addr + 1) :
    s.memReadWord addr = .error (.outOfBounds (addr + 1 : Nat)) := by
  rw [State.memReadWord_eq, if_neg (by omega), if_pos h]

theorem State.memWriteWord_of_lt (h : addr + 1 < s.memLen) :
    s.memWriteWord addr w = .ok (s.setMem (s.mem.writeWord addr w)) :=
  (s.memWriteWord_eq addr w).trans (if_pos h)

theorem State.memWriteWord_of_ge (h : s.memLen ≤ addr) : s.memWriteWord addr w = .error (.outOfBounds addr) := by
  rw [State.memWriteWord_eq, if_neg (by omega), if_neg (by omega)]

theorem State.memWriteWord_of_second_ge (h : addr < s.memLen) (h' : s.memLen ≤ addr + 1) :
    s.memWriteWord addr w = .error (.outOfBounds (addr + 1 : Nat)) := by
  rw [State.memWriteWord_eq, if_neg (by omega), if_pos h]

end

/-! ### The statements -/

/-- Settles O8: the two ranges of the address, for a read and for a write; a write inside answers the state with the byte
stored. -/
theorem byteAccessIsBoundsChecked : Obligations.ByteAccessIsBoundsChecked := by
  refine ⟨State.memRead_of_lt, State.memRead_of_ge, fun s addr v hm h => ?_, fun s addr v => s.memWrite_of_ge addr v⟩
  exact ⟨_, s.memWrite_of_lt addr v h, s.byteAt_write hm addr v, s.sameMemBut_write addr v, s.setMem_memLen _⟩

/-- Settles O9: the three ranges of the address, for a read and for a write; a write inside answers the state with both
bytes stored. -/
theorem wordAccessIsLittleEndian : Obligations.WordAccessIsLittleEndian := by
  refine ⟨fun s addr h => ⟨_, s.memReadWord_of_lt addr h, pairOf_toNat _ _⟩, State.memReadWord_of_ge,
    State.memReadWord_of_second_ge, fun s addr w hm h => ?_, fun s addr w => s.memWriteWord_of_ge addr w,
    fun s addr w => s.memWriteWord_of_second_ge addr w⟩
  obtain ⟨hLow, hHigh⟩ := s.byteAt_writeWord hm addr w
  exact ⟨_, s.memWriteWord_of_lt addr w h, hLow, hHigh, s.sameMemBut_writeWord addr w⟩

end Sys2Proof.Machine
end

section
/-! SUPPORT. The opcode map (spec/30_encoding.md R83, R86, R87): which opcodes match a pattern, that decoding gives a
well-formed instruction, and the statements about the unimplemented opcodes and the pair selectors. -/

namespace Sys2Proof

/-! ### The head of an opcode -/

/-- The list of R86 is the opcodes that match no pattern of R83, read off at each of the 256 opcodes. -/
theorem mem_unimplementedOpcodes_iff :
    ∀ op : Byte, op ∈ unimplementedOpcodes ↔ ∀ p ∈ patterns, p.hits op = false := by decide

theorem decodeHead_of_mem (op : Byte) (h : op ∈ unimplementedOpcodes) : decodeHead op = .op (.unimplemented op) := by
  have hnone : patterns.find? (fun p => p.hits op) = none := by
    simpa using (mem_unimplementedOpcodes_iff op).1 h
  rw [decodeHead, hnone]

theorem decodeHead_of_notMem (op : Byte) (h : op ∉ unimplementedOpcodes) :
    ∃ p ∈ patterns, p.hits op = true ∧ decodeHead op = p.build op := by
  cases hp : patterns.find? (fun p => p.hits op) with
  | none => exact absurd ((mem_unimplementedOpcodes_iff op).2 (by simpa using hp)) h
  | some p =>
    have hhits := List.find?_some hp
    exact ⟨p, List.mem_of_find?_eq_some hp, hhits, by rw [decodeHead, hp]⟩

/-! ### The instructions the patterns give -/

/-- The well-formed instructions other than the fallback's. -/
def Instr.mapped : Instr → Bool
  | .unimplemented _ => false
  | i => i.wf

theorem Instr.mapped_eq_wf (i : Instr) (h : ∀ op, i ≠ .unimplemented op) : i.mapped = i.wf := by
  cases i
  case unimplemented op => exact absurd rfl (h op)
  all_goals rfl

theorem Instr.wf_iff (i : Instr) :
    i.wf = true ↔ i.mapped = true ∨ ∃ op ∈ unimplementedOpcodes, i = .unimplemented op := by
  cases i <;> simp [Instr.mapped, Instr.wf]

@[simp] theorem jccOf_mapped (cond : Cond) (w : Word) : (jccOf cond w).mapped = true := by cases cond <;> rfl
@[simp] theorem movOf_mapped (dst src : Operand) : (movOf dst src).mapped = true := by
  cases dst <;> cases src <;> rfl
@[simp] theorem mviOf_mapped (dst : Operand) (v : Byte) : (mviOf dst v).mapped = true := by cases dst <;> rfl
@[simp] theorem dcrOf_mapped (o : Operand) : (dcrOf o).mapped = true := by cases o <;> rfl
@[simp] theorem inrOf_mapped (o : Operand) : (inrOf o).mapped = true := by cases o <;> rfl
@[simp] theorem cmpOf_mapped (o : Operand) : (cmpOf o).mapped = true := by cases o <;> rfl
@[simp] theorem pushOf_mapped (p : PairSel) : (pushOf p).mapped = true := by cases p <;> rfl
@[simp] theorem popOf_mapped (p : PairSel) : (popOf p).mapped = true := by cases p <;> rfl

/-- The opcodes of SHLD, LHLD, STA and LDA, which the LDAX and STAX patterns with selector 2 or 3 match too (R87). -/
def directOpcodes : List Byte := [0x22, 0x2A, 0x32, 0x3A]

theorem addresses_of_notMem_directOpcodes : ∀ op : Byte, op ∉ directOpcodes →
    op &&& 0xCF = 0x0A ∨ op &&& 0xCF = 0x02 → (pairSelOf (ppField op)).addresses = true := by decide

/-- Only LDAX and STAX need a look at the opcode: the selector may name no address pair. -/
theorem build_mapped (op b2 b3 : Byte) (h : op ∉ directOpcodes) :
    ∀ p ∈ patterns, p.hits op = true → ((p.build op).complete b2 b3).mapped = true := by
  have hsel := addresses_of_notMem_directOpcodes op h
  have hldax : op &&& 0xCF = 0x0A → (Instr.ldax (pairSelOf (ppField op))).mapped = true := fun hop => hsel (.inl hop)
  have hstax : op &&& 0xCF = 0x02 → (Instr.stax (pairSelOf (ppField op))).mapped = true := fun hop => hsel (.inr hop)
  simpa [patterns, patterns1, patterns2, patterns3, Pattern.hits, Head.complete, Instr.mapped_eq_wf, Instr.wf]
    using And.intro hldax hstax

/-! ### Decoding -/

theorem decodeHead_mapped (op b2 b3 : Byte) (h : op ∉ unimplementedOpcodes) :
    ((decodeHead op).complete b2 b3).mapped = true := by
  by_cases hd : op ∈ directOpcodes
  · simp only [directOpcodes, List.mem_cons, List.not_mem_nil, or_false] at hd
    rcases hd with rfl | rfl | rfl | rfl <;> rfl
  · obtain ⟨p, hp, hhits, hhead⟩ := decodeHead_of_notMem op h
    rw [hhead]
    exact build_mapped op b2 b3 hd p hp hhits

/-- Where the decoder answers an instruction, it is the head of the first byte, completed with operand bytes. -/
theorem decode_cons_ok (op : Byte) (rest after : List Byte) (i : Instr) (h : decode (op :: rest) = .ok (i, after)) :
    ∃ b2 b3, i = (decodeHead op).complete b2 b3 := by
  cases hd : decodeHead op with
  | op j =>
    simp only [decode, hd] at h
    cases h
    exact ⟨0, 0, rfl⟩
  | opD8 f =>
    simp only [decode, hd] at h
    match rest, h with
    | b2 :: _, rfl => exact ⟨b2, 0, rfl⟩
  | opA16 f =>
    simp only [decode, hd] at h
    match rest, h with
    | b2 :: b3 :: _, rfl => exact ⟨b2, b3, rfl⟩

theorem decode_mapped (op : Byte) (rest after : List Byte) (i : Instr) (hop : op ∉ unimplementedOpcodes)
    (h : decode (op :: rest) = .ok (i, after)) : i.mapped = true := by
  obtain ⟨b2, b3, rfl⟩ := decode_cons_ok op rest after i h
  exact decodeHead_mapped op b2 b3 hop

theorem decode_of_mem (op : Byte) (rest : List Byte) (h : op ∈ unimplementedOpcodes) :
    decode (op :: rest) = .ok (.unimplemented op, rest) := by
  simp only [decode, decodeHead_of_mem op h]

/-- The decoder gives only well-formed instructions. -/
theorem decode_wf (bytes after : List Byte) (i : Instr) (h : decode bytes = .ok (i, after)) : i.wf = true := by
  cases bytes with
  | nil => cases h
  | cons op rest =>
    rw [Instr.wf_iff]
    by_cases hop : op ∈ unimplementedOpcodes
    · rw [decode_of_mem op rest hop] at h
      cases h
      exact .inr ⟨op, hop, rfl⟩
    · exact .inl (decode_mapped op rest after i hop h)

end Sys2Proof

namespace Sys2Proof.Machine

/-- No step raises the pair selector error: a fetch that fails raises OutOfBounds, and what the decoder gives is
well-formed. -/
theorem step_status_ne_invalidRegisterPairSelector (s t : State) (value : BitVec 2) (context : String)
    (h : step s = .next t) : t.status ≠ .faulted (.invalidRegisterPairSelector value context) := by
  intro hst
  obtain ⟨hrun, ⟨e, hfetch, rfl⟩ | ⟨i, hfetch, hexec⟩⟩ := step_next s t h
  · obtain ⟨addr, rfl⟩ := s.fetch_error e hfetch
    cases hst
  · obtain ⟨rest, hdec⟩ := s.fetch_ok i hfetch
    rcases exec_error i s t _ (decode_wf _ _ i hdec) hrun hexec hst with hacc | ⟨op, -, hop⟩
    · cases hacc
    · cases hop

/-! ### The statements -/

/-- Settles O16: a listed opcode falls through to the fallback, any other takes an instruction from a pattern. -/
theorem unimplementedOpcodesAreTheListed : Obligations.UnimplementedOpcodesAreTheListed := by
  refine ⟨rfl, by decide, fun op hop rest => decode_of_mem op rest hop, fun op rest after i hop h q => ?_,
    fun op s => s.raise_eq _⟩
  rintro rfl
  cases decode_mapped op rest after _ hop h

/-- Settles O17: the decoder gives only well-formed instructions, which such an LDAX or STAX is not. -/
theorem invalidPairSelectorIsUnreachable : Obligations.InvalidPairSelectorIsUnreachable := by
  refine ⟨fun bytes rest i h => ?_, fun lo hi => ⟨rfl, rfl, rfl, rfl⟩, step_status_ne_invalidRegisterPairSelector,
    fun s => ⟨s.raise_eq _, s.raise_eq _, s.raise_eq _, s.raise_eq _⟩⟩
  have hwf := decode_wf bytes rest i h
  refine ⟨?_, ?_, ?_, ?_⟩ <;> rintro rfl <;> cases hwf

end Sys2Proof.Machine
end

section
/-! SUPPORT. The stack (spec/40_stack.md R110 to R115): what push and pop answer in each range of SP, what PUSH and POP make
of that, and the statements about them. -/

namespace Sys2Proof.Machine

/-! ### push: the first byte outside, only the second outside, the new SP past FFFF -/

section
variable (s t : State) (w : Word)

theorem State.push_of_first_outside (h : s.memLen ≤ s.sp.toNat) : s.push w = .error (.outOfBounds s.sp.toNat) := by
  rw [State.push, State.inBounds_of_ge s _ h]
  rfl

theorem State.push_of_second_outside (h : s.sp.toNat < s.memLen) (h' : s.memLen ≤ s.sp.toNat + 1) :
    s.push w = .error (.outOfBounds (s.sp.toNat + 1 : Nat)) := by
  rw [State.push, State.inBounds_of_lt s _ h, State.inBounds_of_ge s _ h']
  rfl

theorem State.push_of_past_top (h : s.sp.toNat + 1 < s.memLen) (h' : 0xFFFF < s.sp.toNat + 2) :
    s.push w = .error (.outOfBounds (s.sp.toNat + 2 : Nat)) := by
  rw [State.push, State.inBounds_of_lt s _ (by omega), State.inBounds_of_lt s _ h, check_of_not _ _ (by omega)]
  rfl

/-- Where a push leaves its word and SP. -/
theorem State.push_stores (hm : s.mem.wf) (h : s.push w = .ok t) :
    t.byteAt s.sp.toNat = lo8 w ∧ t.byteAt (s.sp.toNat + 1) = hi8 w ∧ SameMemBut s.sp.toNat 2 s t ∧
      t.sp.toNat = s.sp.toNat + 2 := by
  obtain ⟨-, hroom, rfl⟩ := s.push_ok w t h
  obtain ⟨hLow, hHigh⟩ := s.byteAt_writeWord hm s.sp.toNat w
  exact ⟨hLow, hHigh, s.sameMemBut_writeWord _ w, toNat_ofNat_word _ hroom⟩

/-- A push reaches memory and SP only. -/
theorem State.push_frame (h : s.push w = .ok t) : SameRegsBut [] s t ∧ t.f = s.f ∧ SameControl s t := by
  obtain ⟨-, -, rfl⟩ := s.push_ok w t h
  exact ⟨fun q _ => by simp, rfl, rfl, ⟨rfl, rfl, rfl, rfl⟩, rfl⟩

end

/-! ### pop: SP below 2, a byte outside, and after a push -/

section
variable (s t : State) (w : Word)

theorem State.pop_of_lt (h : s.sp.toNat < 2) : s.pop = .error (.outOfBounds ((s.sp.toNat : Int) - 2)) := by
  rw [State.pop, check_of_not _ _ (by omega)]
  rfl

/-- From SP 2 upward a pop raises what its read raises. -/
theorem State.pop_of_read_error (e : Error) (h : 2 ≤ s.sp.toNat) (hread : s.memReadWord (s.sp.toNat - 2) = .error e) :
    s.pop = .error e := by
  rw [State.pop, check_of _ _ h, hread]
  rfl

theorem State.pop_of_first_outside (h : 2 ≤ s.sp.toNat) (h' : s.memLen ≤ s.sp.toNat - 2) :
    s.pop = .error (.outOfBounds (s.sp.toNat - 2 : Nat)) :=
  s.pop_of_read_error _ h (s.memReadWord_of_ge _ h')

theorem State.pop_of_second_outside (h : 2 ≤ s.sp.toNat) (hFirst : s.sp.toNat - 2 < s.memLen)
    (hSecond : s.memLen ≤ s.sp.toNat - 1) : s.pop = .error (.outOfBounds (s.sp.toNat - 1 : Nat)) := by
  have hnext : s.sp.toNat - 2 + 1 = s.sp.toNat - 1 := by omega
  rw [← hnext] at hSecond ⊢
  exact s.pop_of_read_error _ h (s.memReadWord_of_second_ge _ hFirst hSecond)

/-- The number of the word that a pop leaves in SP. -/
theorem State.pop_sp_toNat : (BitVec.ofNat 16 (s.sp.toNat - 2)).toNat = s.sp.toNat - 2 :=
  toNat_ofNat_word _ (by omega)

/-- A pop takes back what the push before it stored. -/
theorem State.pop_of_push (hm : s.mem.wf) (h : s.push w = .ok t) : t.pop = .ok (w, t.setSp s.sp) := by
  obtain ⟨hLow, hHigh, -, hsp⟩ := s.push_stores t w hm h
  obtain ⟨-, -, -, ⟨hlen, -⟩, -⟩ := s.push_frame t w h
  obtain ⟨hIn, -, -⟩ := s.push_ok w t h
  have hFirst : t.sp.toNat - 2 = s.sp.toNat := by omega
  have hSecond : t.sp.toNat - 1 = s.sp.toNat + 1 := by omega
  calc t.pop = .ok (pairOf (t.byteAt (t.sp.toNat - 1)) (t.byteAt (t.sp.toNat - 2)),
        t.setSp (BitVec.ofNat 16 (t.sp.toNat - 2))) := t.pop_of_room (by omega) (by omega)
    _ = .ok (w, t.setSp s.sp) := by
      rw [hFirst, hSecond, hLow, hHigh, pairOf_split, BitVec.ofNat_toNat, BitVec.setWidth_eq]

end

/-! ### The instructions, as sequential ones -/

/-- A sequential instruction whose advance would pass FFFF traps, whatever its body. -/
theorem pastTop_of_sequential {len : Nat} {i : Instr} {s : State} {body : Except Error State}
    (h : exec i s = s.sequential len body) : PastTop len i s :=
  fun hpast => h.trans (s.sequential_past len body hpast)

/-- The end of a sequential instruction whose body keeps control state. -/
theorem State.advanced_setPc (s u : State) (len : Nat) (hpc : s.pc.toNat + len ≤ 0xFFFF) (hu : SameControl s u) :
    Advanced len s (u.setPc (BitVec.ofNat 16 (s.pc.toNat + len))) :=
  ⟨toNat_ofNat_word _ hpc, hu⟩

section
variable (p : Pair) (s : State)

theorem exec_pushRp : exec (.pushRp p) s = s.sequential 1 (s.push (s.pair p)) := rfl

theorem exec_pushPsw : exec .pushPsw s = s.sequential 1 (s.push s.psw) := rfl

theorem exec_popRp : exec (.popRp p) s = s.sequential 1 (s.pop >>= fun r => .ok (r.2.setPair p r.1)) := rfl

theorem exec_popPsw : exec .popPsw s = s.sequential 1 (s.pop >>= fun r => .ok (r.2.setPsw r.1)) := rfl

@[simp] theorem State.lo8_pair : lo8 (s.pair p) = s.reg (pairLow p) := lo8_pairOf _ _

@[simp] theorem State.hi8_pair : hi8 (s.pair p) = s.reg (pairHigh p) := hi8_pairOf _ _

end

/-- A PUSH of any word, with room on the stack. -/
theorem State.sequential_push_of_room (s : State) (w : Word) (hm : s.mem.wf) (hpc : s.pc.toNat + 1 ≤ 0xFFFF)
    (hIn : s.sp.toNat + 1 < s.memLen) (hroom : s.sp.toNat + 2 ≤ 0xFFFF) :
    ∃ t, s.sequential 1 (s.push w) = .next t ∧ t.byteAt s.sp.toNat = lo8 w ∧ t.byteAt (s.sp.toNat + 1) = hi8 w ∧
      t.sp.toNat = s.sp.toNat + 2 ∧ SameMemBut s.sp.toNat 2 s t ∧ SameRegsBut [] s t ∧ t.f = s.f ∧
      Advanced 1 s t := by
  have hpush := s.push_of_room w hIn hroom
  obtain ⟨hLow, hHigh, hmem, hsp⟩ := s.push_stores _ w hm hpush
  obtain ⟨hregs, hf, hctl⟩ := s.push_frame _ w hpush
  rw [hpush]
  exact ⟨_, s.sequential_ok _ 1 hpc, hLow, hHigh, hsp, hmem, fun q hq => (State.reg_setPc _ _ q).trans (hregs q hq), hf,
    s.advanced_setPc _ 1 hpc hctl⟩

/-- A POP with two bytes below SP, for either way of loading the word. -/
theorem State.sequential_pop_of_room (s : State) (load : Word × State → State) (hpc : s.pc.toNat + 1 ≤ 0xFFFF)
    (h : 2 ≤ s.sp.toNat) (hIn : s.sp.toNat - 1 < s.memLen) :
    s.sequential 1 (s.pop >>= fun r => .ok (load r)) =
      .next ((load (pairOf (s.byteAt (s.sp.toNat - 1)) (s.byteAt (s.sp.toNat - 2)),
        s.setSp (BitVec.ofNat 16 (s.sp.toNat - 2)))).setPc (BitVec.ofNat 16 (s.pc.toNat + 1))) := by
  rw [s.pop_of_room h hIn]
  exact s.sequential_ok _ 1 hpc

/-- A POP raises what pop raises, for either way of loading the word. -/
theorem State.sequential_pop_error (s : State) (load : Word × State → State) (e : Error)
    (hpc : s.pc.toNat + 1 ≤ 0xFFFF) (hpop : s.pop = .error e) :
    s.sequential 1 (s.pop >>= fun r => .ok (load r)) = .next (s.faultedWith e) := by
  rw [hpop]
  exact s.sequential_error e 1 hpc

/-! ### The statements -/

/-- Settles O10: the stored word by `State.push_stores`, and the three checks in their order. -/
theorem pushGrowsUpward : Obligations.PushGrowsUpward := by
  refine ⟨fun s w hm hIn hroom => ?_, State.push_of_first_outside, State.push_of_second_outside,
    State.push_of_past_top⟩
  have hpush := s.push_of_room w hIn hroom
  exact ⟨_, hpush, s.push_stores _ w hm hpush⟩

/-- Settles O11: the ranges of SP, and `State.pop_of_push`. -/
theorem popReadsBelowStackPointer : Obligations.PopReadsBelowStackPointer := by
  refine ⟨fun s h hIn => ?_, State.pop_of_lt, State.pop_of_first_outside, State.pop_of_second_outside,
    fun s t w hm h => ⟨_, s.pop_of_push t w hm h, rfl⟩⟩
  exact ⟨_, _, s.pop_of_room h hIn, pairOf_toNat _ _, rfl, s.pop_sp_toNat⟩

/-- Settles O43: both forms are a sequential push, of the pair or of the PSW. -/
theorem pushInstructionsStoreTheWord : Obligations.PushInstructionsStoreTheWord := by
  refine ⟨⟨rfl, rfl, rfl, rfl⟩, fun p s hm hpc hIn hroom => ?_, fun s hm hpc hIn hroom => ?_,
    fun p s => ⟨pastTop_of_sequential (exec_pushRp p s), pastTop_of_sequential (exec_pushPsw s)⟩,
    fun s e hpc => ⟨fun p hpush => ?_, fun hpush => ?_⟩⟩
  · simpa [exec_pushRp] using s.sequential_push_of_room (s.pair p) hm hpc hIn hroom
  · simpa [exec_pushPsw] using s.sequential_push_of_room s.psw hm hpc hIn hroom
  · rw [exec_pushRp, hpush, s.sequential_error e 1 hpc]
  · rw [exec_pushPsw, hpush, s.sequential_error e 1 hpc]

/-- Settles O44: both forms are a sequential pop, the word loaded into the pair or into the PSW. -/
theorem popInstructionsLoadTheWord : Obligations.PopInstructionsLoadTheWord := by
  refine ⟨⟨rfl, rfl, rfl, rfl⟩, fun p s hpc h hIn => ?_, fun s hpc h hIn => ?_,
    fun p s => ⟨pastTop_of_sequential (exec_popRp p s), pastTop_of_sequential (exec_popPsw s)⟩,
    fun s e hpc hpop => ⟨fun p => s.sequential_pop_error _ e hpc hpop, s.sequential_pop_error _ e hpc hpop⟩⟩
  · obtain ⟨hHigh, hLow, hregs⟩ := (s.setSp (BitVec.ofNat 16 (s.sp.toNat - 2))).setPair_regs p
      (pairOf (s.byteAt (s.sp.toNat - 1)) (s.byteAt (s.sp.toNat - 2)))
    exact ⟨_, s.sequential_pop_of_room (fun r => r.2.setPair p r.1) hpc h hIn, by simpa using hLow,
      by simpa using hHigh, by simpa using s.pop_sp_toNat, fun _ => by simp [State.byteAt],
      fun q hq => by simpa using hregs q hq, by simp, s.advanced_setPc _ 1 hpc (by simp [SameControl, SameParams])⟩
  · have hregs := (s.setSp (BitVec.ofNat 16 (s.sp.toNat - 2))).setPsw_sameRegsBut
      (pairOf (s.byteAt (s.sp.toNat - 1)) (s.byteAt (s.sp.toNat - 2)))
    exact ⟨_, s.sequential_pop_of_room (fun r => r.2.setPsw r.1) hpc h hIn, lo8_pairOf _ _, by simp, s.pop_sp_toNat,
      fun _ => rfl, fun q hq => (State.reg_setPc _ _ q).trans ((hregs q hq).trans (s.reg_setSp _ q)),
      s.advanced_setPc _ 1 hpc (by simp [SameControl, SameParams])⟩

end Sys2Proof.Machine
end

section
/-! SUPPORT. Control flow (spec/41_control_flow.md R120 to R134): what the transfers of control answer, what the fetch at
their target answers, and the statements about them. -/

namespace Sys2Proof.Machine

/-! ### NOP and the conditional jumps -/

/-- A sequential instruction with nothing to do advances pc only. -/
theorem State.sequential_self (s : State) (len : Nat) (hpc : s.pc.toNat + len ≤ 0xFFFF) :
    ∃ t, s.sequential len (.ok s) = .next t ∧ t.pc.toNat = s.pc.toNat + len ∧ t = { s with pc := t.pc } :=
  ⟨_, s.sequential_ok s len hpc, toNat_ofNat_word _ hpc, rfl⟩

section
variable (cc : Cond) (target : Word) (s : State)

theorem exec_nop : exec .nop s = s.sequential 1 (.ok s) := rfl

theorem exec_jumpOn : exec (jumpOn cc target) s = s.jumpIf cc target := by
  cases cc <;> rfl

theorem exec_jumpOn_taken (h : condHolds s.f cc = true) : exec (jumpOn cc target) s = .next (s.setPc target) :=
  (exec_jumpOn cc target s).trans (if_pos h)

theorem exec_jumpOn_not_taken (h : condHolds s.f cc = false) :
    exec (jumpOn cc target) s = s.sequential 3 (.ok s) :=
  (exec_jumpOn cc target s).trans (if_neg (by simp [h]))

end

/-! ### CALL -/

section
variable (target : Word) (s t : State)

theorem exec_call :
    exec (.call target) s = s.complete (s.nextPc 3 >>= fun ret => s.push ret >>= fun u => .ok (u.setPc target)) := rfl

theorem exec_call_of_pc (hpc : s.pc.toNat + 3 ≤ 0xFFFF) :
    exec (.call target) s =
      s.complete (s.push (BitVec.ofNat 16 (s.pc.toNat + 3)) >>= fun u => .ok (u.setPc target)) := by
  rw [exec_call, State.nextPc_eq, if_pos hpc]
  rfl

theorem exec_call_pastTop : PastTop 3 (.call target) s := by
  intro hpast
  rw [TrapsAt, exec_call, State.nextPc_eq, if_neg (by omega)]
  rfl

theorem exec_call_push_ok (hpc : s.pc.toNat + 3 ≤ 0xFFFF)
    (hpush : s.push (BitVec.ofNat 16 (s.pc.toNat + 3)) = .ok t) :
    exec (.call target) s = .next (t.setPc target) := by
  rw [exec_call_of_pc target s hpc, hpush]
  rfl

theorem exec_call_push_error (e : Error) (hpc : s.pc.toNat + 3 ≤ 0xFFFF)
    (hpush : s.push (BitVec.ofNat 16 (s.pc.toNat + 3)) = .error e) :
    exec (.call target) s = .next (s.faultedWith e) := by
  rw [exec_call_of_pc target s hpc, hpush]
  rfl

/-- A CALL that raises no error is at its target. -/
theorem exec_call_pc (h : exec (.call target) s = .next t) (hrun : t.status = .running) : t.pc = target := by
  rcases s.complete_next t _ h with hbody | ⟨e, rfl⟩
  · obtain ⟨ret, -, hbody⟩ := except_bind_ok _ _ _ hbody
    obtain ⟨u, -, hu⟩ := except_bind_ok _ _ _ hbody
    cases hu
    rfl
  · cases hrun

end

/-! ### RET -/

section
variable (s u : State) (w : Word)

theorem exec_ret : exec .ret s = s.complete (s.pop >>= fun r => .ok (r.2.setPc r.1)) := rfl

theorem exec_ret_pop_ok (hpop : s.pop = .ok (w, u)) : exec .ret s = .next (u.setPc w) := by
  rw [exec_ret, hpop]
  rfl

theorem exec_ret_pop_error (e : Error) (hpop : s.pop = .error e) : exec .ret s = .next (s.faultedWith e) := by
  rw [exec_ret, hpop]
  rfl

end

/-! ### The fetch at the target -/

section
variable (s : State)

/-- Beyond memory a fetch raises, under either window. -/
theorem State.fetch_of_ge (h : s.memLen ≤ s.pc.toNat) : s.fetch = .error (.outOfBounds s.pc.toNat) := by
  unfold State.fetch
  split
  · exact s.fetchExact_eq.trans (if_pos h)
  · exact s.fetchThree_eq.trans (if_pos h)

/-- With three bytes in memory a fetch answers, under either window. -/
theorem State.fetch_of_room (h : s.pc.toNat + 3 ≤ s.memLen) : ∃ i, s.fetch = .ok i := by
  unfold State.fetch
  split
  · rw [State.fetchExact_eq, if_neg (by omega)]
    cases decodeHead (s.byteAt s.pc.toNat) with
    | op i => exact ⟨i, rfl⟩
    | opD8 f => exact ⟨_, if_neg (by omega)⟩
    | opA16 f => exact ⟨_, (if_neg (by omega)).trans (if_neg (by omega))⟩
  · rw [State.fetchThree_eq, if_neg (by omega), if_neg (by omega), if_neg (by omega)]
    exact ⟨_, rfl⟩

theorem step_of_fetch_outside (hrun : s.status = .running) (h : s.memLen ≤ s.pc.toNat) :
    step s = .next (s.faultedWith (.outOfBounds s.pc.toNat)) := by
  rw [step_running s hrun, s.fetch_of_ge h]
  exact s.raise_eq _

/-- With three bytes in memory a step runs what the decoder reads at pc: the fetch answers, and `State.fetch_ok` says
what. -/
theorem step_of_decode (hrun : s.status = .running) (hroom : s.pc.toNat + 3 ≤ s.memLen) (i : Instr)
    (rest : List Byte) (hdec : decode s.windowBytes = .ok (i, rest)) : step s = exec i s := by
  obtain ⟨j, hfetch⟩ := s.fetch_of_room hroom
  obtain ⟨rest', hj⟩ := s.fetch_ok j hfetch
  obtain rfl : i = j := congrArg Prod.fst (Except.ok.inj (hdec.symm.trans hj))
  rw [step_running s hrun, hfetch]

end

/-! ### The statements -/

/-- Settles O34: NOP is sequential, with nothing to do. -/
theorem nopChangesOnlyPc : Obligations.NopChangesOnlyPc :=
  ⟨rfl, fun s hpc => s.sequential_self 1 hpc, fun s => pastTop_of_sequential (exec_nop s)⟩

/-- Settles O35: the target is written to pc as it is. -/
theorem jmpSetsPc : Obligations.JmpSetsPc :=
  ⟨fun _ _ => rfl, fun _ _ => rfl⟩

/-- Settles O36: one rule for the eight conditions, taken or not, read at each condition's flag. -/
theorem conditionalJumpsFollowTheirFlag : Obligations.ConditionalJumpsFollowTheirFlag := by
  refine ⟨fun lo hi => ⟨rfl, rfl, rfl, rfl, rfl, rfl, rfl, rfl⟩, fun target s => ?_⟩
  have hset (cc : Cond) (h : condHolds s.f cc = true) := exec_jumpOn_taken cc target s h
  refine ⟨fun h => hset .nz (congrArg not h), hset .z, fun h => hset .nc (congrArg not h), hset .c,
    fun h => hset .po (congrArg not h), hset .pe, fun h => hset .p (congrArg not h), hset .m,
    fun cc h hpc => ?_, fun cc h => pastTop_of_sequential (exec_jumpOn_not_taken cc target s h)⟩
  rw [exec_jumpOn_not_taken cc target s h]
  exact s.sequential_self 3 hpc

/-- Settles O37: where the push leaves the return address, and what it raises. -/
theorem callPushesReturnAddress : Obligations.CallPushesReturnAddress := by
  refine ⟨fun _ _ => rfl, fun target s hm hpc hIn hroom => ?_, exec_call_pastTop, exec_call_push_error⟩
  have hpush := s.push_of_room (BitVec.ofNat 16 (s.pc.toNat + 3)) hIn hroom
  obtain ⟨hLow, hHigh, hmem, hsp⟩ := s.push_stores _ _ hm hpush
  obtain ⟨hregs, hf, hctl⟩ := s.push_frame _ _ hpush
  refine ⟨_, exec_call_push_ok target s _ hpc hpush, rfl, hsp, ?_, hmem,
    fun q hq => (State.reg_setPc _ _ q).trans (hregs q hq), hf, hctl⟩
  calc _ = (hi8 (BitVec.ofNat 16 (s.pc.toNat + 3))).toNat * 256 + (lo8 (BitVec.ofNat 16 (s.pc.toNat + 3))).toNat :=
        congrArg₂ (fun hi lo : Byte => hi.toNat * 256 + lo.toNat) hHigh hLow
    _ = (BitVec.ofNat 16 (s.pc.toNat + 3)).toNat := by rw [← pairOf_toNat, pairOf_split]
    _ = s.pc.toNat + 3 := toNat_ofNat_word _ hpc

/-- Settles O38: the popped word is pc, whatever it is. -/
theorem retPopsIntoPc : Obligations.RetPopsIntoPc := by
  refine ⟨rfl, fun s h hIn => ?_, exec_ret_pop_error⟩
  exact ⟨_, exec_ret_pop_ok s _ _ (s.pop_of_room h hIn), pairOf_toNat _ _, s.pop_sp_toNat, rfl⟩

/-- Settles O40: HLT is `State.halt`. -/
theorem hltSetsOnlyStatus : Obligations.HltSetsOnlyStatus :=
  ⟨rfl, State.halt_eq⟩

/-- Settles O41: each transfer writes its target to pc unchecked, and a step from there begins with the fetch. -/
theorem targetsAreCheckedByTheNextFetch : Obligations.TargetsAreCheckedByTheNextFetch := by
  refine ⟨fun _ _ => rfl, exec_jumpOn_taken, fun target s t h _ hrun => exec_call_pc target s t h hrun,
    fun s t u w hpop h => ?_, fun s target => step_of_fetch_outside (s.setPc target),
    fun s target i rest hrun hroom => step_of_decode (s.setPc target) hrun hroom i rest⟩
  cases (exec_ret_pop_ok s u w hpop).symm.trans h
  rfl

end Sys2Proof.Machine
end

section
/-! SUPPORT. Increment, decrement and compare (spec/42_inc_dec_compare.md R140 to R146): the flags of a result, what the
shared bodies of INR and DCR and of CMP and CPI make of a state, and the statements about them. -/

namespace Sys2Proof.Machine

/-! ### What an update that is not of memory leaves of the bytes -/

section
variable (s : State) (addr : Nat)

@[simp] theorem State.byteAt_setPc (w : Word) : (s.setPc w).byteAt addr = s.byteAt addr := rfl

@[simp] theorem State.byteAt_updateFlags (result : Byte) (carry : Bool) (which : FlagSet) :
    (s.updateFlags result carry which).byteAt addr = s.byteAt addr := rfl

@[simp] theorem State.byteAt_setReg (r : Reg) (v : Byte) : (s.setReg r v).byteAt addr = s.byteAt addr := by
  cases r <;> rfl

end

/-! ### The operand M -/

section
variable (s : State)

theorem State.readOperand_mem_of_lt (h : (s.pair .hl).toNat < s.memLen) :
    s.readOperand .mem = .ok (s.byteAt (s.pair .hl).toNat) :=
  s.memRead_of_lt _ h

theorem State.readOperand_mem_of_ge (h : s.memLen ≤ (s.pair .hl).toNat) :
    s.readOperand .mem = .error (.outOfBounds (s.pair .hl).toNat) :=
  s.memRead_of_ge _ h

end

/-! ### The flags of a result -/

section
variable (s t : State) (result : Byte) (carry : Bool) (which : FlagSet)

theorem State.updateFlags_f_eq :
    (s.updateFlags result carry which).f = Machine.updateFlags s.f result carry which :=
  fix_updateFlags _ _ _ _

theorem flagsOf_setPc (w : Word) : FlagsOf result s (t.setPc w) ↔ FlagsOf result s t := Iff.rfl

/-- An update that asks for S, Z and P leaves the flags of its result, whatever it is told of carry. -/
theorem State.flagsOf_updateFlags (hf : t.f = s.f) (hs : which.s = true) (hz : which.z = true) (hp : which.p = true) :
    FlagsOf result s (t.updateFlags result carry which) := by
  refine ⟨?_, ?_, ?_, ?_⟩ <;> rw [State.updateFlags_f_eq, hf]
  · rw [flagS_updateFlags, if_pos hs]
  · rw [flagZ_updateFlags, if_pos hz, beq_eq_decide]
  · rw [flagP_updateFlags, if_pos hp]
    rfl
  · exact flagAC_updateFlags _ _ _ _

/-- INR and DCR do not ask for C (R140). -/
theorem State.flagC_updateFlags_szpa : flagC (s.updateFlags result carry szpa).f = flagC s.f := by
  rw [State.updateFlags_f_eq, Machine.flagC_updateFlags]
  rfl

/-- CMP and CPI ask for C (R144). -/
theorem State.flagC_updateFlags_szpca : flagC (s.updateFlags result carry szpca).f = carry := by
  rw [State.updateFlags_f_eq, Machine.flagC_updateFlags]
  rfl

end

/-! ### INR and DCR: the operand plus `delta` -/

section
variable (s : State) (delta : Byte)

/-- INR or DCR of a register, with room for the advance. -/
theorem State.sequential_bump_reg (r : Reg) (hpc : s.pc.toNat + 1 ≤ 0xFFFF) :
    ∃ t, s.sequential 1 (s.bump (.reg r) delta) = .next t ∧
      (t.reg r).toNat = ((s.reg r).toNat + delta.toNat) % 256 ∧ FlagsOf (t.reg r) s t ∧ flagC t.f = flagC s.f ∧
      SameRegsBut [r] s t ∧ t.sp = s.sp ∧ SameMem s t ∧ Advanced 1 s t := by
  rw [State.bump_reg, s.sequential_ok _ 1 hpc]
  refine ⟨_, rfl, ?_⟩
  rw [State.reg_setPc, State.reg_updateFlags, State.reg_setReg_same, flagsOf_setPc]
  refine ⟨BitVec.toNat_add _ _, s.flagsOf_updateFlags _ _ _ szpa (s.setReg_f r _) rfl rfl rfl, ?_, fun q hq => ?_, ?_,
    fun _ => ?_, s.advanced_setPc _ 1 hpc (by simp [SameControl, SameParams])⟩
  · rw [State.setPc_f, State.flagC_updateFlags_szpa, State.setReg_f]
  · simpa using s.setReg_sameRegsBut r (s.reg r + delta) q hq
  · simp
  · simp

theorem State.bump_mem_of_lt (hhl : (s.pair .hl).toNat < s.memLen) :
    s.bump .mem delta =
      .ok ((s.setMem (s.mem.write (s.pair .hl).toNat (s.byteAt (s.pair .hl).toNat + delta))).updateFlags
        (s.byteAt (s.pair .hl).toNat + delta) false szpa) :=
  (s.bump_mem delta).trans (if_pos hhl)

theorem State.bump_mem_of_ge (hhl : s.memLen ≤ (s.pair .hl).toNat) :
    s.bump .mem delta = .error (.outOfBounds (s.pair .hl).toNat) :=
  (s.bump_mem delta).trans (if_neg (Nat.not_lt.2 hhl))

/-- INR or DCR of the byte at HL, inside memory and with room for the advance. -/
theorem State.sequential_bump_mem (hm : s.mem.wf) (hpc : s.pc.toNat + 1 ≤ 0xFFFF)
    (hhl : (s.pair .hl).toNat < s.memLen) :
    ∃ t, s.sequential 1 (s.bump .mem delta) = .next t ∧
      (t.byteAt (s.pair .hl).toNat).toNat = ((s.byteAt (s.pair .hl).toNat).toNat + delta.toNat) % 256 ∧
      FlagsOf (t.byteAt (s.pair .hl).toNat) s t ∧ flagC t.f = flagC s.f ∧ SameMemBut (s.pair .hl).toNat 1 s t ∧
      SameRegsBut [] s t ∧ t.sp = s.sp ∧ Advanced 1 s t := by
  rw [s.bump_mem_of_lt delta hhl, s.sequential_ok _ 1 hpc]
  refine ⟨_, rfl, ?_⟩
  rw [State.byteAt_setPc, State.byteAt_updateFlags, s.byteAt_write hm, flagsOf_setPc]
  refine ⟨BitVec.toNat_add _ _, s.flagsOf_updateFlags _ _ _ szpa rfl rfl rfl rfl, ?_,
    fun addr haddr => s.sameMemBut_write _ _ addr haddr, fun q _ => ?_, rfl,
    s.advanced_setPc _ 1 hpc (by simp [SameControl, SameParams])⟩
  · rw [State.setPc_f, State.flagC_updateFlags_szpa, State.setMem_f]
  · simp

theorem State.sequential_bump_mem_outside (hpc : s.pc.toNat + 1 ≤ 0xFFFF) (hhl : s.memLen ≤ (s.pair .hl).toNat) :
    s.sequential 1 (s.bump .mem delta) = .next (s.faultedWith (.outOfBounds (s.pair .hl).toNat)) := by
  rw [s.bump_mem_of_ge delta hhl, s.sequential_error _ 1 hpc]

end

/-! ### CMP and CPI: the flags of A minus the operand -/

/-- A comparison with room for the advance, for either length. -/
theorem State.sequential_compare (s : State) (v : Byte) (len : Nat) (hpc : s.pc.toNat + len ≤ 0xFFFF) :
    ∃ t, s.sequential len (.ok (s.compare v)) = .next t ∧ FlagsOf (s.a - v) s t ∧
      (flagC t.f = true ↔ s.a.toNat < v.toNat) ∧ SameRegsBut [] s t ∧ t.sp = s.sp ∧ SameMem s t ∧
      Advanced len s t := by
  rw [State.compare, s.sequential_ok _ len hpc]
  refine ⟨_, rfl, ?_⟩
  rw [flagsOf_setPc]
  refine ⟨s.flagsOf_updateFlags s _ _ szpca rfl rfl rfl rfl, ?_, fun q _ => ?_, rfl, fun _ => rfl,
    s.advanced_setPc _ len hpc (by simp [SameControl, SameParams])⟩
  · rw [State.setPc_f, State.flagC_updateFlags_szpca, decide_eq_true_iff]
  · simp

/-! ### The instructions, as sequential ones -/

section
variable (r : Reg) (imm : Byte) (s : State)

theorem exec_inrR : exec (.inrR r) s = s.sequential 1 (s.bump (.reg r) 1) := rfl

theorem exec_dcrR : exec (.dcrR r) s = s.sequential 1 (s.bump (.reg r) (-1)) := rfl

theorem exec_inrM : exec .inrM s = s.sequential 1 (s.bump .mem 1) := rfl

theorem exec_dcrM : exec .dcrM s = s.sequential 1 (s.bump .mem (-1)) := rfl

theorem exec_cmpR : exec (.cmpR r) s = s.sequential 1 (.ok (s.compare (s.reg r))) := rfl

theorem exec_cmpM : exec .cmpM s = s.sequential 1 (s.readOperand .mem >>= fun v => .ok (s.compare v)) := rfl

theorem exec_cpi : exec (.cpi imm) s = s.sequential 2 (.ok (s.compare imm)) := rfl

theorem exec_cmpM_of_lt (hhl : (s.pair .hl).toNat < s.memLen) :
    exec .cmpM s = s.sequential 1 (.ok (s.compare (s.byteAt (s.pair .hl).toNat))) := by
  rw [exec_cmpM, s.readOperand_mem_of_lt hhl]
  rfl

theorem exec_cmpM_outside (hpc : s.pc.toNat + 1 ≤ 0xFFFF) (hhl : s.memLen ≤ (s.pair .hl).toNat) :
    TrapsAt .cmpM s (s.pair .hl).toNat := by
  rw [TrapsAt, exec_cmpM, s.readOperand_mem_of_ge hhl]
  exact s.sequential_error _ 1 hpc

end

/-! ### The statements -/

/-- Settles O46: both forms are a sequential bump of the register, by 1 or by 255. -/
theorem incDecRegister : Obligations.IncDecRegister := by
  refine ⟨fun r => ?_, fun r s hpc => ⟨s.sequential_bump_reg 1 r hpc, s.sequential_bump_reg (-1) r hpc⟩,
    fun r s => ⟨pastTop_of_sequential (exec_inrR r s), pastTop_of_sequential (exec_dcrR r s)⟩⟩
  cases r <;> exact ⟨rfl, rfl⟩

/-- Settles O47: both forms are a sequential bump of the byte at HL, by 1 or by 255. -/
theorem incDecMemory : Obligations.IncDecMemory :=
  ⟨⟨rfl, rfl⟩, fun s hm hpc hhl => ⟨s.sequential_bump_mem 1 hm hpc hhl, s.sequential_bump_mem (-1) hm hpc hhl⟩,
    fun s => ⟨pastTop_of_sequential (exec_inrM s), pastTop_of_sequential (exec_dcrM s)⟩,
    fun s hpc hhl => ⟨s.sequential_bump_mem_outside 1 hpc hhl, s.sequential_bump_mem_outside (-1) hpc hhl⟩⟩

/-- Settles O48: the three forms are a sequential comparison with their operand. -/
theorem compareSetsFlagsOnly : Obligations.CompareSetsFlagsOnly := by
  refine ⟨⟨fun r => ?_, rfl, fun _ => rfl⟩, fun r s hpc => s.sequential_compare (s.reg r) 1 hpc,
    fun s hpc hhl => ?_, fun imm s hpc => s.sequential_compare imm 2 hpc,
    fun r imm s => ⟨pastTop_of_sequential (exec_cmpR r s), pastTop_of_sequential (exec_cmpM s),
      pastTop_of_sequential (exec_cpi imm s)⟩, exec_cmpM_outside⟩
  · cases r <;> rfl
  · rw [exec_cmpM_of_lt s hhl]
    exact s.sequential_compare _ 1 hpc

end Sys2Proof.Machine
end

section
/-! SUPPORT. Data movement (spec/43_data_movement.md R150 to R164): what loading a register, a pair or a pair selector and
storing a byte make of a state, and the statements about them. -/

namespace Sys2Proof.Machine

/-! ### A body that reads memory first -/

section
variable (s : State) {α : Type} (x : Except Error α) (f : α → Except Error State) (len : Nat)

theorem State.sequential_bind_ok (a : α) (hx : x = .ok a) : s.sequential len (x >>= f) = s.sequential len (f a) := by
  rw [hx]
  rfl

theorem State.sequential_bind_error (e : Error) (hpc : s.pc.toNat + len ≤ 0xFFFF) (hx : x = .error e) :
    s.sequential len (x >>= f) = .next (s.faultedWith e) := by
  rw [hx]
  exact s.sequential_error e len hpc

end

/-! ### What is left alone -/

theorem sameMem_of_mem_eq {s t : State} (h : t.mem = s.mem) : SameMem s t :=
  fun addr => congrArg (fun m => Memory.read m addr) h

theorem sameRegsBut_setPc {changed : List Reg} {s t : State} {w : Word} (h : SameRegsBut changed s t) :
    SameRegsBut changed s (t.setPc w) :=
  fun q hq => (t.reg_setPc w q).trans (h q hq)

/-! ### Loading a register -/

section
variable (s : State) (r : Reg) (addr len : Nat) (hpc : s.pc.toNat + len ≤ 0xFFFF)
include hpc

/-- A register loaded, with room for the advance. -/
theorem State.sequential_setReg (v : Byte) :
    ∃ t, s.sequential len (.ok (s.setReg r v)) = .next t ∧ t.reg r = v ∧ SameRegsBut [r] s t ∧ t.f = s.f ∧ t.sp = s.sp ∧
      SameMem s t ∧ Advanced len s t :=
  ⟨_, s.sequential_ok _ len hpc, by simp, sameRegsBut_setPc (s.setReg_sameRegsBut r v),
    s.setReg_f r v, s.setReg_sp r v, sameMem_of_mem_eq (s.setReg_mem r v),
    s.advanced_setPc _ len hpc (by simp [SameControl, SameParams])⟩

/-- A register loaded from memory, inside it and with room for the advance. -/
theorem State.sequential_load (h : addr < s.memLen) :
    ∃ t, s.sequential len (s.memRead addr >>= fun v => .ok (s.setReg r v)) = .next t ∧ t.reg r = s.byteAt addr ∧
      SameRegsBut [r] s t ∧ t.f = s.f ∧ t.sp = s.sp ∧ SameMem s t ∧ Advanced len s t := by
  rw [s.sequential_bind_ok _ _ len _ (s.memRead_of_lt addr h)]
  exact s.sequential_setReg r len hpc (s.byteAt addr)

theorem State.sequential_load_outside (h : s.memLen ≤ addr) :
    s.sequential len (s.memRead addr >>= fun v => .ok (s.setReg r v)) = .next (s.faultedWith (.outOfBounds addr)) :=
  s.sequential_bind_error _ _ len _ hpc (s.memRead_of_ge addr h)

end

/-! ### Storing a byte or a word -/

section
variable (s : State) (addr len : Nat) (hpc : s.pc.toNat + len ≤ 0xFFFF)
include hpc

/-- A byte stored, inside memory and with room for the advance. -/
theorem State.sequential_memWrite (v : Byte) (hm : s.mem.wf) (h : addr < s.memLen) :
    ∃ t, s.sequential len (s.memWrite addr v) = .next t ∧ t.byteAt addr = v ∧ SameMemBut addr 1 s t ∧
      SameRegsBut [] s t ∧ t.f = s.f ∧ t.sp = s.sp ∧ Advanced len s t := by
  rw [s.memWrite_of_lt addr v h]
  exact ⟨_, s.sequential_ok _ len hpc, s.byteAt_write hm addr v, s.sameMemBut_write addr v, fun q _ => by simp, rfl, rfl,
    s.advanced_setPc _ len hpc (by simp [SameControl, SameParams])⟩

theorem State.sequential_memWrite_outside (v : Byte) (h : s.memLen ≤ addr) :
    s.sequential len (s.memWrite addr v) = .next (s.faultedWith (.outOfBounds addr)) := by
  rw [s.memWrite_of_ge addr v h, s.sequential_error _ len hpc]

/-- A word stored, inside memory and with room for the advance. -/
theorem State.sequential_memWriteWord (w : Word) (hm : s.mem.wf) (h : addr + 1 < s.memLen) :
    ∃ t, s.sequential len (s.memWriteWord addr w) = .next t ∧ t.byteAt addr = lo8 w ∧ t.byteAt (addr + 1) = hi8 w ∧
      SameMemBut addr 2 s t ∧ SameRegsBut [] s t ∧ t.f = s.f ∧ t.sp = s.sp ∧ Advanced len s t := by
  obtain ⟨hLow, hHigh⟩ := s.byteAt_writeWord hm addr w
  rw [s.memWriteWord_of_lt addr w h]
  exact ⟨_, s.sequential_ok _ len hpc, hLow, hHigh, s.sameMemBut_writeWord addr w, fun q _ => by simp, rfl, rfl,
    s.advanced_setPc _ len hpc (by simp [SameControl, SameParams])⟩

end

/-! ### Loading what a pair selector names -/

@[simp] theorem State.readSel_setPc (s : State) (p : PairSel) (w : Word) : (s.setPc w).readSel p = s.readSel p := by
  cases p <;> simp [State.readSel]

@[simp] theorem State.readSel_writeSel (s : State) (p : PairSel) (w : Word) : (s.writeSel p w).readSel p = w := by
  cases p <;> simp [State.readSel, State.writeSel]

theorem State.setPair_sameRegsBut (s : State) (p : Pair) (w : Word) :
    SameRegsBut [pairHigh p, pairLow p] s (s.setPair p w) := by
  obtain ⟨-, -, hregs⟩ := s.setPair_regs p w
  exact hregs

theorem State.writeSel_sameRegsBut (s : State) (p : PairSel) (w : Word) :
    SameRegsBut (PairSel.regs p) s (s.writeSel p w) := by
  cases p
  case sp => exact fun q _ => s.reg_setSp w q
  case bc => exact s.setPair_sameRegsBut .bc w
  case de => exact s.setPair_sameRegsBut .de w
  case hl => exact s.setPair_sameRegsBut .hl w

theorem State.writeSel_sp_of_ne (s : State) (p : PairSel) (w : Word) (h : p ≠ .sp) : (s.writeSel p w).sp = s.sp := by
  cases p
  case sp => exact absurd rfl h
  case bc | de | hl => exact s.setPair_sp _ w

section
variable (s : State) (w : Word) (len : Nat) (hpc : s.pc.toNat + len ≤ 0xFFFF)
include hpc

/-- A pair or SP loaded, with room for the advance. -/
theorem State.sequential_writeSel (p : PairSel) :
    ∃ t, s.sequential len (.ok (s.writeSel p w)) = .next t ∧ t.readSel p = w ∧ SameRegsBut (PairSel.regs p) s t ∧
      (p ≠ .sp → t.sp = s.sp) ∧ t.f = s.f ∧ SameMem s t ∧ Advanced len s t :=
  ⟨_, s.sequential_ok _ len hpc, by simp, sameRegsBut_setPc (s.writeSel_sameRegsBut p w),
    s.writeSel_sp_of_ne p w, s.writeSel_f p w, sameMem_of_mem_eq (s.writeSel_mem p w),
    s.advanced_setPc _ len hpc (by simp [SameControl, SameParams])⟩

/-- A pair loaded, its two registers apart. -/
theorem State.sequential_setPair (p : Pair) :
    ∃ t, s.sequential len (.ok (s.setPair p w)) = .next t ∧ t.reg (pairHigh p) = hi8 w ∧ t.reg (pairLow p) = lo8 w ∧
      SameRegsBut [pairHigh p, pairLow p] s t ∧ t.f = s.f ∧ t.sp = s.sp ∧ SameMem s t ∧ Advanced len s t := by
  obtain ⟨hHigh, hLow, -⟩ := s.setPair_regs p w
  exact ⟨_, s.sequential_ok _ len hpc, (State.reg_setPc _ _ _).trans hHigh, (State.reg_setPc _ _ _).trans hLow,
    sameRegsBut_setPc (s.setPair_sameRegsBut p w), s.setPair_f p w, s.setPair_sp p w,
    sameMem_of_mem_eq (s.setPair_mem p w), s.advanced_setPc _ len hpc (by simp [SameControl, SameParams])⟩

/-- SP loaded: no register is among the destinations. -/
theorem State.sequential_setSp :
    ∃ t, s.sequential len (.ok (s.setSp w)) = .next t ∧ t.sp = w ∧ SameRegsBut [] s t ∧ t.f = s.f ∧ SameMem s t ∧
      Advanced len s t := by
  obtain ⟨t, ht, hsp, hregs, -, hf, hmem, hadv⟩ := s.sequential_writeSel w len hpc .sp
  exact ⟨t, ht, hsp, hregs, hf, hmem, hadv⟩

end

/-! ### The instructions, as sequential ones -/

section
variable (dst src : Reg) (p : PairSel) (imm : Byte) (addr w : Word) (s : State)

theorem exec_movRR : exec (.movRR dst src) s = s.sequential 1 (.ok (s.setReg dst (s.reg src))) := rfl

theorem exec_movRM :
    exec (.movRM dst) s = s.sequential 1 (s.memRead (s.pair .hl).toNat >>= fun v => .ok (s.setReg dst v)) := rfl

theorem exec_movMR : exec (.movMR src) s = s.sequential 1 (s.memWrite (s.pair .hl).toNat (s.reg src)) := rfl

theorem exec_mviR : exec (.mviR dst imm) s = s.sequential 2 (.ok (s.setReg dst imm)) := rfl

theorem exec_mviM : exec (.mviM imm) s = s.sequential 2 (s.memWrite (s.pair .hl).toNat imm) := rfl

theorem exec_lda :
    exec (.lda addr) s = s.sequential 3 (s.memRead addr.toNat >>= fun v => .ok (s.setReg .a v)) := rfl

theorem exec_sta : exec (.sta addr) s = s.sequential 3 (s.memWrite addr.toNat s.a) := rfl

theorem exec_lhld :
    exec (.lhld addr) s = s.sequential 3 (s.memReadWord addr.toNat >>= fun w => .ok (s.setPair .hl w)) := rfl

theorem exec_shld : exec (.shld addr) s = s.sequential 3 (s.memWriteWord addr.toNat (s.pair .hl)) := rfl

theorem exec_lxi : exec (.lxi p w) s = s.sequential 3 (.ok (s.writeSel p w)) := rfl

theorem exec_sphl : exec .sphl s = s.sequential 1 (.ok (s.setSp (s.pair .hl))) := rfl

theorem exec_inx : exec (.inx p) s = s.sequential 1 (.ok (s.writeSel p (s.readSel p + 1))) := rfl

theorem exec_dcx : exec (.dcx p) s = s.sequential 1 (.ok (s.writeSel p (s.readSel p - 1))) := rfl

/-- LDAX of a selector that names an address pair. -/
theorem exec_ldax_of_addressPair (q : Pair) (hq : addressPair p "LDAX" = .ok q) :
    exec (.ldax p) s = s.sequential 1 (s.memRead (s.pair q).toNat >>= fun v => .ok (s.setReg .a v)) := by
  show execLdax p s = _
  rw [execLdax, hq]

/-- STAX of a selector that names an address pair. -/
theorem exec_stax_of_addressPair (q : Pair) (hq : addressPair p "STAX" = .ok q) :
    exec (.stax p) s = s.sequential 1 (s.memWrite (s.pair q).toNat s.a) := by
  show execStax p s = _
  rw [execStax, hq]

/-- LDAX and STAX of a selector that names none raise before pc's advance is looked at. -/
theorem exec_indirect_of_not_addressPair (value : BitVec 2)
    (hp : ∀ context, addressPair p context = .error (.invalidRegisterPairSelector value context)) :
    exec (.ldax p) s = .next (s.faultedWith (.invalidRegisterPairSelector value "LDAX")) ∧
      exec (.stax p) s = .next (s.faultedWith (.invalidRegisterPairSelector value "STAX")) := by
  show execLdax p s = _ ∧ execStax p s = _
  rw [execLdax, execStax, hp, hp]
  exact ⟨s.raise_eq _, s.raise_eq _⟩

end

/-! ### The statements -/

/-- Settles O49: the three forms load the register, from a register, from the byte at HL or from the immediate. -/
theorem movesLoadTheRegister : Obligations.MovesLoadTheRegister := by
  refine ⟨fun dst src => ?_, fun dst => ?_, fun dst imm => ?_,
    fun dst src s hpc => s.sequential_setReg dst 1 hpc (s.reg src),
    fun dst s hpc => s.sequential_load dst _ 1 hpc,
    fun dst imm s hpc => s.sequential_setReg dst 2 hpc imm,
    fun dst src imm s => ⟨pastTop_of_sequential (exec_movRR dst src s), pastTop_of_sequential (exec_movRM dst s),
      pastTop_of_sequential (exec_mviR dst imm s)⟩,
    fun dst s hpc => s.sequential_load_outside dst _ 1 hpc⟩
  · cases dst <;> cases src <;> rfl
  · cases dst <;> rfl
  · cases dst <;> rfl

/-- Settles O50: the three forms are a sequential store of one byte. -/
theorem storesWriteOneByte : Obligations.StoresWriteOneByte := by
  refine ⟨fun src => ?_, fun _ => rfl, fun _ _ => rfl,
    fun src s hm hpc => s.sequential_memWrite _ 1 hpc (s.reg src) hm,
    fun imm s hm hpc => s.sequential_memWrite _ 2 hpc imm hm,
    fun addr s hm hpc => s.sequential_memWrite _ 3 hpc s.a hm,
    fun src imm addr s => ⟨pastTop_of_sequential (exec_movMR src s), pastTop_of_sequential (exec_mviM imm s),
      pastTop_of_sequential (exec_sta addr s)⟩,
    fun src s hpc => s.sequential_memWrite_outside _ 1 hpc (s.reg src),
    fun imm s hpc => s.sequential_memWrite_outside _ 2 hpc imm,
    fun addr s hpc => s.sequential_memWrite_outside _ 3 hpc s.a⟩
  cases src <;> rfl

/-- Settles O51: LDA is a sequential load of A. -/
theorem ldaLoadsTheAccumulator : Obligations.LdaLoadsTheAccumulator :=
  ⟨fun _ _ => rfl, fun addr s hpc => s.sequential_load .a addr.toNat 3 hpc,
    fun addr s => pastTop_of_sequential (exec_lda addr s),
    fun addr s hpc => s.sequential_load_outside .a addr.toNat 3 hpc⟩

/-- Settles O52: a sequential load or store of A at the address pair, and the selectors that name none. -/
theorem indirectAccumulatorMoves : Obligations.IndirectAccumulatorMoves := by
  have hldaxBc (s : State) := exec_ldax_of_addressPair .bc s .bc rfl
  have hldaxDe (s : State) := exec_ldax_of_addressPair .de s .de rfl
  have hstaxBc (s : State) := exec_stax_of_addressPair .bc s .bc rfl
  have hstaxDe (s : State) := exec_stax_of_addressPair .de s .de rfl
  refine ⟨⟨rfl, rfl, rfl, rfl⟩, fun s hpc => ?_, fun s => ⟨pastTop_of_sequential (hldaxBc s),
    pastTop_of_sequential (hldaxDe s), pastTop_of_sequential (hstaxBc s), pastTop_of_sequential (hstaxDe s)⟩,
    fun s => ?_⟩
  · simp only [TrapsAt, hldaxBc, hldaxDe, hstaxBc, hstaxDe]
    have hload (q : Pair) := s.sequential_load .a (s.pair q).toNat 1 hpc
    have hstore (q : Pair) := s.sequential_memWrite (s.pair q).toNat 1 hpc s.a
    have hout (q : Pair) (h : s.memLen ≤ (s.pair q).toNat) :=
      And.intro (s.sequential_load_outside .a _ 1 hpc h) (s.sequential_memWrite_outside _ 1 hpc s.a h)
    exact ⟨hload .bc, hload .de, hstore .bc, hstore .de, hout .bc, hout .de⟩
  · obtain ⟨hldaxHl, hstaxHl⟩ := exec_indirect_of_not_addressPair .hl s 2 fun _ => rfl
    obtain ⟨hldaxSp, hstaxSp⟩ := exec_indirect_of_not_addressPair .sp s 3 fun _ => rfl
    exact ⟨hldaxHl, hldaxSp, hstaxHl, hstaxSp⟩

/-- Settles O53: LHLD loads HL from the word at the address, SHLD stores HL there, and both raise what the word access
raises. -/
theorem directWordMovesHl : Obligations.DirectWordMovesHl := by
  refine ⟨fun _ _ => ⟨rfl, rfl⟩, fun addr s hpc h => ⟨?_, fun hm => ?_⟩,
    fun addr s => ⟨pastTop_of_sequential (exec_lhld addr s), pastTop_of_sequential (exec_shld addr s)⟩,
    fun addr s hpc h => ⟨s.sequential_bind_error _ _ 3 _ hpc (s.memReadWord_of_ge _ h), ?_⟩,
    fun addr s hpc h => ⟨s.sequential_bind_error _ _ 3 _ hpc (s.memReadWord_of_second_ge _ (by omega) (by omega)), ?_⟩⟩
  · rw [exec_lhld, s.sequential_bind_ok _ _ 3 _ (s.memReadWord_of_lt _ h)]
    obtain ⟨t, ht, hHigh, hLow, hframe⟩ :=
      s.sequential_setPair (pairOf (s.byteAt (addr.toNat + 1)) (s.byteAt addr.toNat)) 3 hpc .hl
    exact ⟨t, ht, hLow.trans (lo8_pairOf _ _), hHigh.trans (hi8_pairOf _ _), hframe⟩
  · obtain ⟨t, ht, hLow, hHigh, hframe⟩ := s.sequential_memWriteWord addr.toNat 3 hpc (s.pair .hl) hm h
    exact ⟨t, ht, hLow.trans (s.lo8_pair .hl), hHigh.trans (s.hi8_pair .hl), hframe⟩
  · rw [TrapsAt, exec_shld, s.memWriteWord_of_ge _ _ h, s.sequential_error _ 3 hpc]
  · rw [TrapsAt, exec_shld, s.memWriteWord_of_second_ge _ _ (by omega) (by omega), s.sequential_error _ 3 hpc]

/-- Settles O54: LXI loads what its selector names, a pair or SP, and SPHL loads SP with HL. -/
theorem lxiAndSphlLoadTheWord : Obligations.LxiAndSphlLoadTheWord := by
  refine ⟨⟨fun _ _ => ⟨rfl, rfl, rfl, rfl⟩, rfl⟩, fun imm s hpc => ?_, fun s hpc => ?_,
    fun p imm s => ⟨pastTop_of_sequential (exec_lxi p imm s), pastTop_of_sequential (exec_sphl s)⟩⟩
  · have hpair := s.sequential_setPair imm 3 hpc
    exact ⟨hpair .bc, hpair .de, hpair .hl, s.sequential_setSp imm 3 hpc⟩
  · obtain ⟨t, ht, hsp, hframe⟩ := s.sequential_setSp (s.pair .hl) 1 hpc
    exact ⟨t, ht, hsp ▸ s.pair_toNat .hl, hframe⟩

/-- Settles O55: both forms load what the selector names with it plus 1 or plus 65535. -/
theorem inxDcxWrap : Obligations.InxDcxWrap := by
  refine ⟨⟨rfl, rfl, rfl, rfl, rfl, rfl, rfl, rfl⟩, fun p s hpc => ⟨?_, ?_⟩,
    fun p s => ⟨pastTop_of_sequential (exec_inx p s), pastTop_of_sequential (exec_dcx p s)⟩⟩
  · obtain ⟨t, ht, hw, hframe⟩ := s.sequential_writeSel (s.readSel p + 1) 1 hpc p
    exact ⟨t, ht, hw ▸ BitVec.toNat_add _ _, hframe⟩
  · obtain ⟨t, ht, hw, hframe⟩ := s.sequential_writeSel (s.readSel p - 1) 1 hpc p
    refine ⟨t, ht, ?_, hframe⟩
    rw [hw, BitVec.sub_eq_add_neg]
    exact BitVec.toNat_add _ _

end Sys2Proof.Machine
end

section
/-! SUPPORT. Port I/O (spec/44_port_io.md R174): what IN and OUT answer when no hook is registered for their direction, and
the statement about it. -/

namespace Sys2Proof.Machine

section
variable (port : Byte) (s : State) (hpc : s.pc.toNat + 2 ≤ 0xFFFF)
include hpc

theorem exec_inp_of_no_inHook (hhook : s.inHook = false) :
    exec (.inp port) s = .next (s.faultedWith (.missingPortHandler .inward)) := by
  have hcheck := check_of_not (s.inHook = true) (.missingPortHandler .inward) (by simp [hhook])
  exact s.sequential_bind_error _ _ 2 _ hpc hcheck

theorem exec_out_of_no_outHook (hhook : s.outHook = false) :
    exec (.out port) s = .next (s.faultedWith (.missingPortHandler .outward)) := by
  have hcheck := check_of_not (s.outHook = true) (.missingPortHandler .outward) (by simp [hhook])
  exact s.sequential_bind_error _ _ 2 _ hpc hcheck

end

/-- Settles O59: each instruction looks at the hook of its own direction only, before anything is written. -/
theorem missingHookTraps : Obligations.MissingHookTraps :=
  fun port s hpc => ⟨exec_inp_of_no_inHook port s hpc, exec_out_of_no_outHook port s hpc⟩

end Sys2Proof.Machine
end

section
/-! SUPPORT. Errors (spec/60_exceptions.md R188): what an instruction does to `status`, and the statement about a step that
ends with another status than Running. -/

namespace Sys2Proof.Machine

/-- An instruction raises an error with nothing else changed, or is HLT, or keeps `status`. -/
theorem exec_status (i : Instr) (s t : State) (h : exec i s = .next t) :
    (∃ e, t = s.faultedWith e) ∨ (i = .hlt ∧ t = s.haltedNow) ∨ t.status = s.status := by
  rcases exec_effect i s t h with herr | hhlt | ⟨pc', heff⟩
  · exact .inl herr
  · exact .inr (.inl hhlt)
  · refine .inr (.inr ?_)
    cases i
    case hlt | unimplemented => exact heff.elim
    case nop | jmp | jnz | jz | jnc | jc | jpo | jpe | jp | jm | out | inp | sphl | lda | movRR | movRM | mviR =>
      rw [heff]; simp
    case sta | shld | movMR | mviM =>
      obtain ⟨-, rfl⟩ := heff; simp
    case ret | lhld | inrR | dcrR | lxi | inx | dcx | ldax =>
      obtain ⟨w, rfl⟩ := heff; simp
    case cmpR | cmpM | cpi =>
      obtain ⟨v, rfl⟩ := heff; simp [State.compare]
    case inrM | dcrM =>
      obtain ⟨v, -, rfl⟩ := heff; simp
    case popRp =>
      obtain ⟨w, sp', rfl⟩ := heff; simp
    case popPsw =>
      obtain ⟨sp', -, rfl⟩ := heff; simp
    case call | pushRp | pushPsw =>
      obtain ⟨w, sp', -, rfl⟩ := heff; simp
    case stax =>
      obtain ⟨q, -, -, rfl⟩ := heff; simp

/-! ### The statement -/

/-- Settles O22: a step starts from Running, so one that ends with another status is a failed fetch, an instruction that
raised an error, or HLT (`exec_status`), and each of these writes `status` alone. -/
theorem failingStepChangesOnlyStatus : Obligations.FailingStepChangesOnlyStatus := by
  intro s t hstep hend
  obtain ⟨hrun, ⟨e, -, rfl⟩ | ⟨i, -, hexec⟩⟩ := step_next s t hstep
  · rfl
  · rcases exec_status i s t hexec with ⟨e, rfl⟩ | ⟨-, rfl⟩ | hkept
    · rfl
    · rfl
    · exact absurd (hkept.trans hrun) hend

end Sys2Proof.Machine
end

section
/-! SUPPORT. Encoding and decoding (spec/30_encoding.md R80 to R85): each pattern's opcode is its fixed bits and its
fields, so encoding and decoding undo each other, and the order of the patterns settles their overlaps. -/

namespace Sys2Proof

/-! ### Decoding, by the head of the opcode -/

section
variable {op b2 : Byte} {i : Instr} {rest : List Byte}

theorem decode_op (h : decodeHead op = .op i) : decode (op :: rest) = .ok (i, rest) := by
  simp only [decode, h]

theorem decode_opD8 {f : Byte → Instr} (h : decodeHead op = .opD8 f) :
    decode (op :: b2 :: rest) = .ok (f b2, rest) := by
  simp only [decode, h]

theorem decode_opA16 {f : Word → Instr} {w : Word} (h : decodeHead op = .opA16 f) :
    decode (a16 op w ++ rest) = .ok (f w, rest) := by
  simp only [a16, List.cons_append, List.nil_append, decode, h, pairOf_split]

end

/-! ### The encodings of the instructions that have fields in their opcode -/

/-- The selector of a register operand (10_state.md R22). -/
def operandSel : Operand → Byte
  | .reg r => regSel r
  | .mem => memSel

theorem encode_jccOf (cc : Cond) (w : Word) : encode (jccOf cc w) = a16 (0xC2 ||| atDdd (condSel cc)) w := by
  cases cc <;> rfl

/-- The pair M,M is no MOV, and its opcode is HLT's. -/
theorem encode_movOf (dst src : Operand) :
    encode (movOf dst src) = [0x40 ||| (atDdd (operandSel dst) ||| operandSel src)] := by
  rw [← BitVec.or_assoc]
  cases dst <;> cases src <;> rfl

theorem encode_mviOf (dst : Operand) (imm : Byte) :
    encode (mviOf dst imm) = [0x06 ||| atDdd (operandSel dst), imm] := by
  cases dst <;> rfl

theorem encode_dcrOf (o : Operand) : encode (dcrOf o) = [0x05 ||| atDdd (operandSel o)] := by cases o <;> rfl

theorem encode_inrOf (o : Operand) : encode (inrOf o) = [0x04 ||| atDdd (operandSel o)] := by cases o <;> rfl

theorem encode_cmpOf (o : Operand) : encode (cmpOf o) = [0xB8 ||| operandSel o] := by cases o <;> rfl

theorem encode_pushOf (p : PairSel) : encode (pushOf p) = [0xC5 ||| atPp (pairSelBits p)] := by cases p <;> rfl

theorem encode_popOf (p : PairSel) : encode (popOf p) = [0xC1 ||| atPp (pairSelBits p)] := by cases p <;> rfl

/-! ### An opcode is its fixed bits and its fields -/

theorem atDdd_operandSel_operandOf :
    ∀ op : Byte, atDdd (operandSel (operandOf (dddField op))) = op &&& 0x38 := by decide

theorem operandSel_operandOf : ∀ op : Byte, operandSel (operandOf (sssField op)) = op &&& 0x07 := by decide

theorem atDdd_condSel_condOf : ∀ op : Byte, atDdd (condSel (condOf (dddField op))) = op &&& 0x38 := by decide

theorem atPp_pairSelBits_pairSelOf : ∀ op : Byte, atPp (pairSelBits (pairSelOf (ppField op))) = op &&& 0x30 := by
  decide

theorem ddd_or_sss (op : Byte) : op &&& 0x38#8 ||| op &&& 0x07#8 = op &&& 0x3F#8 :=
  BitVec.and_or_distrib_left.symm

theorem Pattern.eq_of_hits (p : Pattern) (op : Byte) (h : p.hits op = true) : p.pattern ||| (op &&& ~~~p.mask) = op := by
  rw [← eq_of_beq h, ← BitVec.and_or_distrib_left, BitVec.or_not_self, BitVec.and_allOnes]

/-- A head's instructions are encoded with the opcode `op`, whatever their operand bytes. -/
def Head.EncodesAs (op : Byte) : Head → Prop
  | .op i => [op] = encode i
  | .opD8 f => ∀ b2, [op, b2] = encode (f b2)
  | .opA16 f => ∀ w, a16 op w = encode (f w)

/-- Whatever the opcode, a pattern builds an instruction whose own opcode has the pattern's fixed bits and the other
bits of that opcode: each field is placed where it was read. -/
theorem build_encodesAs (op : Byte) :
    ∀ p ∈ patterns, (p.build op).EncodesAs (p.pattern ||| (op &&& ~~~p.mask)) := by
  simp only [patterns, patterns1, patterns2, patterns3, List.cons_append, List.nil_append, List.forall_mem_cons,
    Head.EncodesAs, encode_jccOf, encode_movOf, encode_mviOf, encode_dcrOf, encode_inrOf, encode_cmpOf, encode_pushOf,
    encode_popOf, atDdd_operandSel_operandOf, operandSel_operandOf, atDdd_condSel_condOf]
  simp [encode, a16, atPp_pairSelBits_pairSelOf, ddd_or_sss]

theorem decodeHead_encodesAs (op : Byte) : (decodeHead op).EncodesAs op := by
  by_cases hop : op ∈ unimplementedOpcodes
  · rw [decodeHead_of_mem op hop]
    rfl
  · obtain ⟨p, hp, hhits, hhead⟩ := decodeHead_of_notMem op hop
    have hbuild := build_encodesAs op p hp
    rwa [p.eq_of_hits op hhits, ← hhead] at hbuild

/-! ### Encoding and decoding undo each other -/

theorem encode_of_decode (bytes rest : List Byte) (i : Instr) (h : decode bytes = .ok (i, rest)) :
    encode i ++ rest = bytes := by
  cases bytes with
  | nil => cases h
  | cons op after =>
    have henc := decodeHead_encodesAs op
    cases hhead : decodeHead op with
    | op j =>
      rw [hhead] at henc
      rw [decode_op hhead] at h
      cases h
      rw [← show [op] = encode i from henc]
      rfl
    | opD8 f =>
      rw [hhead] at henc
      match after with
      | b2 :: after =>
        rw [decode_opD8 hhead] at h
        cases h
        rw [← henc b2]
        rfl
      | [] => simp [decode, hhead] at h
    | opA16 f =>
      rw [hhead] at henc
      match after with
      | b2 :: b3 :: after =>
        simp only [decode, hhead] at h
        cases h
        rw [← henc (pairOf b3 b2)]
        simp [a16]
      | [_] | [] => simp [decode, hhead] at h

theorem decode_encode (i : Instr) (rest : List Byte) (hw : i.wf = true) : decode (encode i ++ rest) = .ok (i, rest) := by
  cases i
  case nop | ret | sphl | hlt | dcrM | inrM | cmpM | pushPsw | popPsw => exact decode_op rfl
  case movRR dst src => cases dst <;> cases src <;> exact decode_op rfl
  case movRM r | movMR r | dcrR r | inrR r | cmpR r => cases r <;> exact decode_op rfl
  case dcx p | inx p | pushRp p | popRp p => cases p <;> exact decode_op rfl
  case ldax p | stax p =>
    cases p
    case bc | de => exact decode_op rfl
    case hl | sp => cases hw
  case out | inp | cpi | mviM => exact decode_opD8 rfl
  case mviR r imm => cases r <;> exact decode_opD8 rfl
  case jmp | call | lda | sta | lhld | shld => exact decode_opA16 rfl
  case jnz | jz | jnc | jc | jpo | jpe | jp | jm => exact decode_opA16 rfl
  case lxi p imm => cases p <;> exact decode_opA16 rfl
  case unimplemented op => exact decode_of_mem op rest (List.contains_iff_mem.1 hw)

/-! ### Where patterns overlap -/

/-- Patterns whose fixed bits disagree where both fix them match no opcode together. -/
theorem Pattern.not_both_hit {p q : Pattern} (h : p.pattern &&& q.mask ≠ q.pattern &&& p.mask) (op : Byte) :
    ¬ (p.hits op = true ∧ q.hits op = true) := by
  rintro ⟨hp, hq⟩
  apply h
  rw [← eq_of_beq hp, ← eq_of_beq hq, BitVec.and_assoc, BitVec.and_comm p.mask, ← BitVec.and_assoc]

/-- The list rises by level, and within a level the patterns' fixed bits disagree. -/
theorem patterns_pairwise :
    patterns.Pairwise fun p q => p.priority ≤ q.priority ∧
      (p.priority = q.priority → p.pattern &&& q.mask ≠ q.pattern &&& p.mask) := by decide

/-- In a list that rises by level and in which no two patterns of a level match, the first match is the one of the lowest
level. -/
theorem find?_hits_of_lowest (op : Byte) (p : Pattern) (l : List Pattern)
    (hl : l.Pairwise fun p q => p.priority ≤ q.priority ∧
      (p.priority = q.priority → ¬ (p.hits op = true ∧ q.hits op = true)))
    (hp : p ∈ l) (hhits : p.hits op = true) (hlow : ∀ q ∈ l, q.hits op = true → p.priority ≤ q.priority) :
    l.find? (fun r => r.hits op) = some p := by
  induction l with
  | nil => cases hp
  | cons r rest ih =>
    obtain ⟨hr, hrest⟩ := List.pairwise_cons.1 hl
    rcases List.mem_cons.1 hp with rfl | hmem
    · exact List.find?_cons_of_pos hhits
    · obtain ⟨hle, hdisj⟩ := hr p hmem
      have hmiss : ¬ r.hits op = true := fun h =>
        hdisj (Nat.le_antisymm hle (hlow r List.mem_cons_self h)) ⟨h, hhits⟩
      have hskip : (r :: rest).find? (fun q => q.hits op) = rest.find? fun q => q.hits op :=
        List.find?_cons_of_neg hmiss
      rw [hskip]
      exact ih hrest hmem fun q hq => hlow q (List.mem_cons_of_mem r hq)

theorem decodeHead_of_lowest (op : Byte) (p : Pattern) (hp : p ∈ patterns) (hhits : p.hits op = true)
    (hlow : ∀ q ∈ patterns, q.hits op = true → p.priority ≤ q.priority) : decodeHead op = p.build op := by
  have hrise := patterns_pairwise.imp fun {p q} ⟨hle, hne⟩ =>
    And.intro hle fun heq => Pattern.not_both_hit (hne heq) op
  rw [decodeHead, find?_hits_of_lowest op p patterns hrise hp hhits hlow]

/-! ### The statements -/

/-- Settles O12: each encoding's opcode is looked up, and its operand bytes are put together again. -/
theorem decodeOfEncodeGivesInstructionBack : Obligations.DecodeOfEncodeGivesInstructionBack := decode_encode

/-- Settles O13: what the head of an opcode builds is encoded with that opcode (`decodeHead_encodesAs`). -/
theorem encodeOfDecodeGivesBytesBack : Obligations.EncodeOfDecodeGivesBytesBack := fun bytes rest i h =>
  ⟨decode_wf bytes rest i h, encode_of_decode bytes rest i h⟩

/-- Settles O15: the fixed bits of the patterns of a level disagree, and the list rises by level. -/
theorem patternOrderSettlesTheOverlaps : Obligations.PatternOrderSettlesTheOverlaps :=
  ⟨fun op => patterns_pairwise.imp fun ⟨_, hne⟩ heq => Pattern.not_both_hit (hne heq) op, decodeHead_of_lowest,
    fun op h => decodeHead_of_mem op ((mem_unimplementedOpcodes_iff op).2 h), rfl⟩

/-- Settles O14: each word is decoded. -/
theorem sampleWordsDecode : Obligations.SampleWordsDecode :=
  ⟨rfl, rfl, rfl, rfl, rfl, rfl, rfl, rfl, rfl, rfl, rfl⟩

end Sys2Proof
end

section
/-! SUPPORT. What an instruction leaves unchanged (spec/10_state.md R39, R40; 20_memory.md R61), the invariant, and the
statements about them. -/

namespace Sys2Proof.Machine

/-! ### Parameters, the port log, SP and F -/

/-- What an instruction keeps of the fields that few instructions write. -/
structure Keeps (i : Instr) (s t : State) : Prop where
  params : SameParams s t
  ports : usesPort i = false → t.ports = s.ports
  sp : writesSp i = false → t.sp = s.sp
  f : flagBits i = [] → t.f = s.f

theorem exec_keeps (i : Instr) (s t : State) (h : exec i s = .next t) : Keeps i s t := by
  rcases exec_effect i s t h with ⟨e, rfl⟩ | ⟨-, rfl⟩ | ⟨pc', heff⟩
  · exact ⟨⟨rfl, rfl, rfl, rfl⟩, fun _ => rfl, fun _ => rfl, fun _ => rfl⟩
  · exact ⟨⟨rfl, rfl, rfl, rfl⟩, fun _ => rfl, fun _ => rfl, fun _ => rfl⟩
  · cases i
    case hlt | unimplemented => exact heff.elim
    case nop | jmp | jnz | jz | jnc | jc | jpo | jpe | jp | jm | out | inp | sphl | lda | movRR | movRM | mviR =>
      rw [heff]; constructor <;> simp [SameParams, usesPort, writesSp, flagBits]
    case sta | shld | movMR | mviM =>
      obtain ⟨-, rfl⟩ := heff; constructor <;> simp [SameParams]
    case ret | lhld | inrR | dcrR | ldax =>
      obtain ⟨v, rfl⟩ := heff; constructor <;> simp [SameParams, writesSp, flagBits]
    case lxi p _ | inx p | dcx p =>
      obtain ⟨w, rfl⟩ := heff; cases p <;> constructor <;> simp [SameParams, State.writeSel, writesSp]
    case cmpR | cmpM | cpi =>
      obtain ⟨v, rfl⟩ := heff; constructor <;> simp [SameParams, State.compare, flagBits]
    case inrM | dcrM =>
      obtain ⟨v, -, rfl⟩ := heff; constructor <;> simp [SameParams, flagBits]
    case popRp =>
      obtain ⟨w, sp', rfl⟩ := heff; constructor <;> simp [SameParams, writesSp]
    case popPsw =>
      obtain ⟨sp', -, rfl⟩ := heff; constructor <;> simp [SameParams, writesSp, flagBits]
    case call | pushRp | pushPsw =>
      obtain ⟨w, sp', -, rfl⟩ := heff; constructor <;> simp [SameParams, writesSp]
    case stax =>
      obtain ⟨q, -, -, rfl⟩ := heff; constructor <;> simp [SameParams]

/-! ### The port transaction -/

/-- An IN or OUT raises an error, or its hook ran: F is fixed, the hook's stores are in memory, and one transaction is
logged. -/
theorem exec_usesPort (i : Instr) (s t : State) (h : exec i s = .next t) (hport : usesPort i = true) :
    (∃ e, t = s.faultedWith e) ∨ ∃ (x : HookEffect) (ev : PortEvent),
      t.f = fix x.f ∧ t.mem = s.mem.hookWrites s.memLen x.writes ∧ t.ports = ev :: s.ports := by
  rcases exec_effect i s t h with herr | ⟨rfl, -⟩ | ⟨pc', heff⟩
  · exact .inl herr
  · cases hport
  · right
    cases i
    case out port | inp port => rw [heff]; exact ⟨_, _, rfl, rfl, rfl⟩
    all_goals cases hport

/-! ### Data registers -/

theorem exec_sameRegsBut (i : Instr) (s t : State) (h : exec i s = .next t) : SameRegsBut (destRegs i) s t := by
  rcases exec_effect i s t h with ⟨e, rfl⟩ | ⟨-, rfl⟩ | ⟨pc', heff⟩
  · exact fun q _ => by cases q <;> rfl
  · exact fun q _ => by cases q <;> rfl
  · cases i
    case hlt | unimplemented => exact heff.elim
    case nop | jmp | jnz | jz | jnc | jc | jpo | jpe | jp | jm | sphl =>
      rw [heff]; exact fun q _ => by simp
    case out | inp => exact fun q hq => absurd hq (by cases q <;> simp [destRegs])
    case sta | shld | movMR | mviM =>
      obtain ⟨-, rfl⟩ := heff; exact fun q _ => by simp
    case ret | cmpR | cmpM | cpi =>
      obtain ⟨v, rfl⟩ := heff; exact fun q _ => by simp [State.compare]
    case inrM | dcrM =>
      obtain ⟨v, -, rfl⟩ := heff; exact fun q _ => by simp
    case call | pushRp | pushPsw =>
      obtain ⟨w, sp', -, rfl⟩ := heff; exact fun q _ => by simp
    case stax =>
      obtain ⟨p, -, -, rfl⟩ := heff; exact fun q _ => by simp
    case lda | movRR | movRM | mviR => rw [heff]; exact sameRegsBut_setPc (s.setReg_sameRegsBut _ _)
    case ldax => obtain ⟨v, rfl⟩ := heff; exact sameRegsBut_setPc (s.setReg_sameRegsBut _ _)
    case inrR r | dcrR r =>
      obtain ⟨v, rfl⟩ := heff
      exact fun q hq => by simpa using s.setReg_sameRegsBut r v q hq
    case lhld => obtain ⟨w, rfl⟩ := heff; exact sameRegsBut_setPc (s.setPair_sameRegsBut .hl w)
    case lxi p _ | inx p | dcx p => obtain ⟨w, rfl⟩ := heff; exact sameRegsBut_setPc (s.writeSel_sameRegsBut p w)
    case popRp p =>
      obtain ⟨w, sp', rfl⟩ := heff
      exact fun q hq => by simpa using (s.setSp sp').setPair_sameRegsBut p w q hq
    case popPsw =>
      obtain ⟨sp', -, rfl⟩ := heff
      exact fun q hq => by simpa using (s.setSp sp').setPsw_sameRegsBut _ q hq

/-! ### Memory -/

/-- What an instruction that calls no hook does to the contents of memory: nothing, or it stores a byte or a word where
its operand says, inside memory. -/
inductive MemChange (s : State) : Nat × Nat → Memory → Prop
  | kept (at' : Nat × Nat) : MemChange s at' s.mem
  | byte (addr : Nat) (v : Byte) (h : addr < s.memLen) : MemChange s (addr, 1) (s.mem.write addr v)
  | word (addr : Nat) (w : Word) (h : addr + 1 < s.memLen) : MemChange s (addr, 2) (s.mem.writeWord addr w)

theorem exec_memChange (i : Instr) (s t : State) (h : exec i s = .next t) (hport : usesPort i = false) :
    MemChange s (storedAt s i) t.mem := by
  have kept : t.mem = s.mem → MemChange s (storedAt s i) t.mem := fun hmem => hmem ▸ .kept _
  rcases exec_effect i s t h with ⟨e, rfl⟩ | ⟨-, rfl⟩ | ⟨pc', heff⟩
  · exact kept rfl
  · exact kept rfl
  · cases i
    case hlt | unimplemented => exact heff.elim
    case out | inp => cases hport
    case nop | jmp | jnz | jz | jnc | jc | jpo | jpe | jp | jm | sphl | lda | movRR | movRM | mviR =>
      exact kept (by rw [heff]; simp)
    case ret | lhld | inrR | dcrR | lxi | inx | dcx | ldax =>
      obtain ⟨v, rfl⟩ := heff; exact kept (by simp)
    case cmpR | cmpM | cpi =>
      obtain ⟨v, rfl⟩ := heff; exact kept rfl
    case popRp =>
      obtain ⟨w, sp', rfl⟩ := heff; exact kept (by simp)
    case popPsw =>
      obtain ⟨sp', -, rfl⟩ := heff; exact kept rfl
    case sta | movMR | mviM =>
      obtain ⟨hin, rfl⟩ := heff; exact .byte _ _ hin
    case inrM | dcrM =>
      obtain ⟨v, hin, rfl⟩ := heff; exact .byte _ _ hin
    case stax p =>
      obtain ⟨q, hq, hin, rfl⟩ := heff
      cases p <;> cases hq
      case bc | de => exact .byte _ _ hin
    case shld =>
      obtain ⟨hin, rfl⟩ := heff; exact .word _ _ hin
    case call | pushRp | pushPsw =>
      obtain ⟨w, sp', hin, rfl⟩ := heff; exact .word _ _ hin

theorem MemChange.read_outside {s : State} {at' : Nat × Nat} {m : Memory} (h : MemChange s at' m) (addr : Nat)
    (haddr : addr < at'.1 ∨ at'.1 + at'.2 ≤ addr) : m.read addr = s.byteAt addr := by
  cases h with
  | kept => rfl
  | byte k v hin => exact s.sameMemBut_write k v addr haddr
  | word k w hin => exact s.sameMemBut_writeWord k w addr haddr

theorem MemChange.wf_below {s : State} {at' : Nat × Nat} {m : Memory} (h : MemChange s at' m) (hwf : s.mem.wf)
    (hbelow : s.mem.below s.memLen) : m.wf ∧ m.below s.memLen := by
  cases h with
  | kept => exact ⟨hwf, hbelow⟩
  | byte addr v hin => exact ⟨s.mem.write_wf hwf addr v, s.mem.write_below _ addr v hbelow hin⟩
  | word addr w hin => exact ⟨s.mem.writeWord_wf hwf addr w, s.mem.writeWord_below _ addr w hbelow hin⟩

/-! ### The bits of F -/

/-- The bits of F that a flag update is asked to recompute; a request for AC changes nothing (10_state.md R28, R30). -/
def FlagSet.bits (which : FlagSet) : List Nat :=
  (if which.s then [7] else []) ++ (if which.z then [6] else []) ++ (if which.p then [2] else []) ++
    (if which.c then [0] else [])

/-- An update of a fixed byte changes only the bits asked for. -/
theorem updateFlags_getLsbD_other (f result : Byte) (carry : Bool) (which : FlagSet) (n : Nat) (hfix : f = fix f)
    (hn : n ∉ which.bits) : (updateFlags f result carry which).getLsbD n = f.getLsbD n := by
  obtain ⟨hs, hz, hp, hc⟩ : ¬ (which.s = true ∧ n = 7) ∧ ¬ (which.z = true ∧ n = 6) ∧
      ¬ (which.p = true ∧ n = 2) ∧ ¬ (which.c = true ∧ n = 0) := by
    simpa [FlagSet.bits, apply_ite (n ∈ ·)] using hn
  rw [updateFlags_getLsbD, if_neg hs, if_neg hz, if_neg hp, if_neg hc, ← fix_getLsbD, ← hfix]

theorem getLsbD_of_notMem_all (f g : Byte) (n : Nat) (hn : n ∉ [7, 6, 5, 4, 3, 2, 1, 0]) :
    f.getLsbD n = g.getLsbD n := by
  have h8 : 8 ≤ n := by
    simp only [List.mem_cons, List.not_mem_nil, or_false] at hn
    omega
  rw [BitVec.getLsbD_of_ge f n h8, BitVec.getLsbD_of_ge g n h8]

theorem exec_getLsbD_f (i : Instr) (s t : State) (h : exec i s = .next t) (hfix : s.f = fix s.f) (n : Nat)
    (hn : n ∉ flagBits i) : t.f.getLsbD n = s.f.getLsbD n := by
  by_cases hnil : flagBits i = []
  · obtain ⟨-, -, -, hf⟩ := exec_keeps i s t h
    rw [hf hnil]
  · rcases exec_effect i s t h with ⟨e, rfl⟩ | ⟨-, rfl⟩ | ⟨pc', heff⟩
    · rfl
    · rfl
    · cases i
      case popPsw | inp | out => exact getLsbD_of_notMem_all _ _ n hn
      case inrR r | dcrR r =>
        obtain ⟨v, rfl⟩ := heff
        simpa using updateFlags_getLsbD_other s.f v false szpa n hfix hn
      case inrM | dcrM =>
        obtain ⟨v, -, rfl⟩ := heff
        simpa using updateFlags_getLsbD_other s.f v false szpa n hfix hn
      case cmpR | cmpM | cpi =>
        obtain ⟨v, rfl⟩ := heff
        simpa [State.compare] using updateFlags_getLsbD_other s.f _ _ szpca n hfix hn
      all_goals exact absurd rfl hnil

/-! ### The invariant -/

/-- F is fixed wherever it is written, so it stays fixed: kept, updated, popped or left by a hook. -/
theorem exec_f_fixed (i : Instr) (s t : State) (h : exec i s = .next t) (hfix : s.f = fix s.f) : t.f = fix t.f := by
  by_cases hpsw : i = .popPsw
  · rw [hpsw] at h
    rcases exec_effect .popPsw s t h with ⟨e, rfl⟩ | ⟨hne, -⟩ | ⟨pc', sp', -, rfl⟩
    · exact hfix
    · cases hne
    · simp
  · cases hport : usesPort i with
    | false =>
      rcases exec_f i s t h hpsw hport with hf | ⟨result, carry, which, hf⟩
      · rw [hf, ← hfix]
      · rw [hf, fix_updateFlags]
    | true =>
      rcases exec_usesPort i s t h hport with ⟨e, rfl⟩ | ⟨x, -, hf, -, -⟩
      · exact hfix
      · rw [hf, fix_fix]

theorem exec_keeps_mem (i : Instr) (s t : State) (h : exec i s = .next t) (hwf : s.mem.wf)
    (hbelow : s.mem.below s.memLen) : t.mem.wf ∧ t.mem.below s.memLen := by
  cases hport : usesPort i with
  | false => exact (exec_memChange i s t h hport).wf_below hwf hbelow
  | true =>
    rcases exec_usesPort i s t h hport with ⟨e, rfl⟩ | ⟨x, -, -, hmem, -⟩
    · exact ⟨hwf, hbelow⟩
    · rw [hmem]
      exact ⟨Memory.hookWrites_wf _ _ _ hwf, Memory.hookWrites_below _ _ _ hbelow⟩

theorem exec_inv (i : Instr) (s t : State) (hinv : s.Inv) (h : exec i s = .next t) : t.Inv := by
  obtain ⟨hwf, hbelow, hmax, hfix⟩ := hinv
  obtain ⟨⟨hlen, -⟩, -⟩ := exec_keeps i s t h
  obtain ⟨hwf', hbelow'⟩ := exec_keeps_mem i s t h hwf hbelow
  rw [State.Inv, hlen]
  exact ⟨hwf', hbelow', hmax, exec_f_fixed i s t h hfix⟩

/-! ### The statements -/

/-- Settles O26: a failed fetch changes `status` alone, and every instruction keeps the invariant (`exec_inv`). -/
theorem stepKeepsInvariant : Obligations.StepKeepsInvariant := by
  intro s t hinv hstep
  obtain ⟨-, ⟨e, -, rfl⟩ | ⟨i, -, hexec⟩⟩ := step_next s t hstep
  · exact hinv
  · exact exec_inv i s t hinv hexec

/-- Settles O27: a failed fetch changes `status` alone, and every instruction keeps the parameters (`exec_keeps`). -/
theorem stepKeepsParameters : Obligations.StepKeepsParameters := by
  intro s t hstep
  obtain ⟨-, ⟨e, -, rfl⟩ | ⟨i, -, hexec⟩⟩ := step_next s t hstep
  · exact ⟨rfl, rfl, rfl, rfl⟩
  · exact (exec_keeps i s t hexec).params

/-- Settles O29: `exec_sameRegsBut`. -/
theorem registerFrame : Obligations.RegisterFrame := exec_sameRegsBut

/-- Settles O30: SP is among what `exec_keeps` keeps. -/
theorem stackPointerFrame : Obligations.StackPointerFrame := fun i s t h => (exec_keeps i s t h).sp

/-- Settles O31: `exec_getLsbD_f`, bit by bit. -/
theorem flagFrame : Obligations.FlagFrame := exec_getLsbD_f

/-- Settles O32: an instruction stores where `storedAt` says, a hook inside memory. -/
theorem memoryFrame : Obligations.MemoryFrame := by
  refine fun i s t h => ⟨fun hport => (exec_memChange i s t h hport).read_outside, fun hport addr haddr => ?_⟩
  rcases exec_usesPort i s t h hport with ⟨e, rfl⟩ | ⟨x, -, -, hmem, -⟩
  · rfl
  · rw [State.byteAt, hmem]
    exact s.mem.read_hookWrites_outside _ x.writes addr haddr

/-- Settles O33: an instruction that ends Running raised no error, so its hook was called and logged. -/
theorem portFrame : Obligations.PortFrame := by
  refine fun i s t h => ⟨(exec_keeps i s t h).ports, fun hport _ hrun => ?_⟩
  rcases exec_usesPort i s t h hport with ⟨e, rfl⟩ | ⟨-, ev, -, -, hlog⟩
  · cases hrun
  · exact ⟨ev, hlog⟩

end Sys2Proof.Machine
end

section
/-! SUPPORT. The step (spec/30_encoding.md R89, 60_exceptions.md R180 to R191): which bytes a fetch needs under each window,
that a step of a Running machine answers, and the statements about them. -/

namespace Sys2Proof

/-! ### The length that the opcode fixes -/

theorem encode_length (i : Instr) : (encode i).length = i.length := by
  cases i <;> rfl

theorem Head.EncodesAs.length_complete {op : Byte} {head : Head} (h : head.EncodesAs op) (b2 b3 : Byte) :
    (head.complete b2 b3).length = head.length := by
  cases head with
  | op i => rw [Head.complete, ← encode_length, ← show [op] = encode i from h]; rfl
  | opD8 f => rw [Head.complete, ← encode_length, ← h b2]; rfl
  | opA16 f => rw [Head.complete, ← encode_length, ← h (pairOf b3 b2)]; rfl

theorem length_of_decode (op : Byte) (rest after : List Byte) (i : Instr) (h : decode (op :: rest) = .ok (i, after)) :
    i.length = (decodeHead op).length := by
  obtain ⟨b2, b3, rfl⟩ := decode_cons_ok op rest after i h
  exact (decodeHead_encodesAs op).length_complete b2 b3

end Sys2Proof

namespace Sys2Proof.Machine

/-! ### Which bytes a fetch needs -/

section
variable (s : State)

theorem State.fetch_of_exact (hw : s.window = .exact) : s.fetch = s.fetchExact := by rw [State.fetch, hw]

theorem State.fetch_of_three (hw : s.window = .three) : s.fetch = s.fetchThree := by rw [State.fetch, hw]

/-- Under `exact` a fetch answers when the bytes of the opcode's length lie in memory. -/
theorem State.fetch_exact_of_room (hw : s.window = .exact)
    (h : s.pc.toNat + (decodeHead (s.byteAt s.pc.toNat)).length ≤ s.memLen) : ∃ i, s.fetch = .ok i := by
  rw [s.fetch_of_exact hw, State.fetchExact_eq]
  cases hd : decodeHead (s.byteAt s.pc.toNat) with
  | op i =>
    simp only [hd, Head.length] at h
    exact ⟨i, if_neg (by omega)⟩
  | opD8 f =>
    simp only [hd, Head.length] at h
    exact ⟨_, (if_neg (by omega)).trans (if_neg (by omega))⟩
  | opA16 f =>
    simp only [hd, Head.length] at h
    exact ⟨_, (if_neg (by omega)).trans ((if_neg (by omega)).trans (if_neg (by omega)))⟩

theorem State.fetch_exact_second_outside (hw : s.window = .exact) (hlen : s.memLen = s.pc.toNat + 1)
    (h : 2 ≤ (decodeHead (s.byteAt s.pc.toNat)).length) : s.fetch = .error (.outOfBounds (s.pc.toNat + 1 : Nat)) := by
  rw [s.fetch_of_exact hw, State.fetchExact_eq, if_neg (by omega)]
  cases hd : decodeHead (s.byteAt s.pc.toNat) with
  | op i => simp [hd, Head.length] at h
  | opD8 f => exact if_pos (by omega)
  | opA16 f => exact if_pos (by omega)

theorem State.fetch_exact_third_outside (hw : s.window = .exact) (hlen : s.memLen = s.pc.toNat + 2)
    (h : (decodeHead (s.byteAt s.pc.toNat)).length = 3) : s.fetch = .error (.outOfBounds (s.pc.toNat + 2 : Nat)) := by
  rw [s.fetch_of_exact hw, State.fetchExact_eq, if_neg (by omega)]
  cases hd : decodeHead (s.byteAt s.pc.toNat) with
  | op i => simp [hd, Head.length] at h
  | opD8 f => simp [hd, Head.length] at h
  | opA16 f => exact (if_neg (by omega)).trans (if_pos (by omega))

theorem State.fetch_three_second_outside (hw : s.window = .three) (hlen : s.memLen = s.pc.toNat + 1) :
    s.fetch = .error (.outOfBounds (s.pc.toNat + 1 : Nat)) := by
  rw [s.fetch_of_three hw, State.fetchThree_eq, if_neg (by omega), if_pos (by omega)]

theorem State.fetch_three_third_outside (hw : s.window = .three) (hlen : s.memLen = s.pc.toNat + 2) :
    s.fetch = .error (.outOfBounds (s.pc.toNat + 2 : Nat)) := by
  rw [s.fetch_of_three hw, State.fetchThree_eq, if_neg (by omega), if_neg (by omega), if_pos (by omega)]

/-- With the bytes in memory that the window reads, a fetch answers what the decoder reads at pc. -/
theorem State.fetch_of_decode (i : Instr) (rest : List Byte) (hdec : decode s.windowBytes = .ok (i, rest))
    (hroom : s.pc.toNat + (if s.window = .exact then i.length else 3) ≤ s.memLen) : s.fetch = .ok i := by
  have hanswers : ∃ j, s.fetch = .ok j := by
    cases hw : s.window with
    | exact =>
      rw [if_pos hw, length_of_decode _ _ rest i hdec] at hroom
      exact s.fetch_exact_of_room hw hroom
    | three =>
      rw [hw] at hroom
      exact s.fetch_of_room hroom
  obtain ⟨j, hfetch⟩ := hanswers
  obtain ⟨rest', hj⟩ := s.fetch_ok j hfetch
  cases hdec.symm.trans hj
  exact hfetch

/-! ### What a step answers -/

variable (hrun : s.status = .running)
include hrun

theorem step_of_fetch_ok (i : Instr) (hfetch : s.fetch = .ok i) : step s = exec i s := by
  rw [step_running s hrun, hfetch]

theorem step_of_fetch_error (e : Error) (hfetch : s.fetch = .error e) : step s = .next (s.faultedWith e) := by
  rw [step_running s hrun, hfetch]
  exact s.raise_eq e

theorem step_answers : ∃ t, step s = .next t := by
  cases hfetch : s.fetch with
  | error e => exact ⟨_, step_of_fetch_error s hrun e hfetch⟩
  | ok i =>
    rw [step_of_fetch_ok s hrun i hfetch]
    exact exec_answers i s

end

/-- A well-formed instruction that ends by advancing pc is sequential, of its own length. -/
theorem exec_eq_sequential (i : Instr) (s : State) (hadv : advancesPc i = true) (hwf : i.wf = true) :
    ∃ body, exec i s = s.sequential i.length body := by
  cases i
  case jmp | call | ret | hlt | unimplemented | jnz | jz | jnc | jc | jpo | jpe | jp | jm => cases hadv
  case ldax p | stax p =>
    cases p
    case bc | de => exact ⟨_, rfl⟩
    case hl | sp => cases hwf
  all_goals exact ⟨_, rfl⟩

/-! ### The statements -/

/-- Settles O19: the failing fetches of each window, first missing byte first. -/
theorem fetchOutsideMemoryTraps : Obligations.FetchOutsideMemoryTraps := fun s hrun =>
  ⟨step_of_fetch_outside s hrun,
    fun hw hlen h => step_of_fetch_error s hrun _ (s.fetch_exact_second_outside hw hlen h),
    fun hw hlen h => step_of_fetch_error s hrun _ (s.fetch_exact_third_outside hw hlen h),
    fun hw hlen => step_of_fetch_error s hrun _ (s.fetch_three_second_outside hw hlen),
    fun hw hlen => step_of_fetch_error s hrun _ (s.fetch_three_third_outside hw hlen)⟩

/-- Settles O21: a fetch error is raised, and every instruction answers. -/
theorem runningStepAlwaysAnswers : Obligations.RunningStepAlwaysAnswers := step_answers

/-- Settles O23: `exec_status`, its cases in another order. -/
theorem instructionCompletesOrRaises : Obligations.InstructionCompletesOrRaises := by
  intro i s t h
  rcases exec_status i s t h with herr | hhlt | hkept
  · exact .inr (.inl herr)
  · exact .inr (.inr hhlt)
  · exact .inl hkept

/-- Settles O42: the instruction is sequential (`exec_eq_sequential`), and its advance is checked first. -/
theorem advancePastTopTraps : Obligations.AdvancePastTopTraps := by
  intro i s hadv hwf hpast
  obtain ⟨body, hbody⟩ := exec_eq_sequential i s hadv hwf
  exact pastTop_of_sequential hbody hpast

/-- Settles O18: the fetch answers what the decoder reads. -/
theorem stepRunsDecodedInstruction : Obligations.StepRunsDecodedInstruction := fun s i rest hrun hdec hroom =>
  step_of_fetch_ok s hrun i (s.fetch_of_decode i rest hdec hroom)

/-- Settles O20: a step looks at `status` first. -/
theorem stepAfterEndRepeatsOutcome : Obligations.StepAfterEndRepeatsOutcome :=
  ⟨fun s hst => by rw [step, hst], fun s e hst => by rw [step, hst]⟩

end Sys2Proof.Machine
end

section
/-! SUPPORT. Two instructions in a row (spec/40_stack.md, 41_control_flow.md R131, R132): what CALL or PUSH stored, RET or POP takes
back. -/

namespace Sys2Proof.Machine

/-- Settles O39: the word that CALL stored is the word that RET pops. -/
theorem callThenRetIsNetZero : Obligations.CallThenRetIsNetZero := by
  intro target s hm hpc hIn hroom
  obtain ⟨-, hcall, -, -⟩ := callPushesReturnAddress
  obtain ⟨-, hret, -⟩ := retPopsIntoPc
  obtain ⟨t, ht, -, hsp, hword, -, -, -, -, ⟨hlen, -⟩, -⟩ := hcall target s hm hpc hIn hroom
  obtain ⟨u, hu, hupc, husp, -⟩ := hret t (by omega) (by omega)
  have hFirst : t.sp.toNat - 2 = s.sp.toNat := by omega
  have hSecond : t.sp.toNat - 1 = s.sp.toNat + 1 := by omega
  refine ⟨t, u, ht, hu, ?_, BitVec.eq_of_toNat_eq (by omega)⟩
  rw [hupc, hFirst, hSecond, hword]

/-- Settles O45: the two bytes that PUSH stored are the two that POP loads. -/
theorem pushThenPopMovesThePair : Obligations.PushThenPopMovesThePair := by
  intro p q s hm hpc hIn hroom
  obtain ⟨-, hpush, -⟩ := pushInstructionsStoreTheWord
  obtain ⟨-, hpop, -⟩ := popInstructionsLoadTheWord
  obtain ⟨t, ht, hLow, hHigh, hsp, -, -, -, hpc', -, ⟨hlen, -⟩, -⟩ := hpush p s hm (by omega) hIn hroom
  obtain ⟨u, hu, huLow, huHigh, husp, -⟩ := hpop q t (by omega) (by omega) (by omega)
  have hFirst : t.sp.toNat - 2 = s.sp.toNat := by omega
  have hSecond : t.sp.toNat - 1 = s.sp.toNat + 1 := by omega
  refine ⟨t, u, ht, hu, ?_, BitVec.eq_of_toNat_eq (by omega)⟩
  rw [State.pair, huLow, huHigh, hFirst, hSecond, hLow, hHigh]
  rfl

end Sys2Proof.Machine
end

section
/-! SUPPORT. Port I/O with the hook registered (spec/44_port_io.md R170 to R173): what IN and OUT answer, the order of a hook's
stores, and the statements about them. -/

namespace Sys2Proof.Machine

section
variable (port : Byte) (s : State)

theorem exec_inp :
    exec (.inp port) s = s.sequential 2 (check (s.inHook = true) (.missingPortHandler .inward) >>= fun _ =>
      .ok (((s.applyHook (Config.inHook s port).effect).setReg .a (Config.inHook s port).value).logPort
        (.read port (Config.inHook s port).value))) := rfl

theorem exec_out :
    exec (.out port) s = s.sequential 2 (check (s.outHook = true) (.missingPortHandler .outward) >>= fun _ =>
      .ok ((s.applyHook (Config.outHook s port s.a)).logPort (.write port s.a))) := rfl

theorem exec_inp_of_inHook (hpc : s.pc.toNat + 2 ≤ 0xFFFF) (hhook : s.inHook = true) :
    exec (.inp port) s =
      .next ((((s.applyHook (Config.inHook s port).effect).setReg .a (Config.inHook s port).value).logPort
        (.read port (Config.inHook s port).value)).setPc (BitVec.ofNat 16 (s.pc.toNat + 2))) := by
  rw [exec_inp, s.sequential_bind_ok _ _ 2 () (check_of _ _ hhook), s.sequential_ok _ 2 hpc]

theorem exec_out_of_outHook (hpc : s.pc.toNat + 2 ≤ 0xFFFF) (hhook : s.outHook = true) :
    exec (.out port) s =
      .next (((s.applyHook (Config.outHook s port s.a)).logPort (.write port s.a)).setPc
        (BitVec.ofNat 16 (s.pc.toNat + 2))) := by
  rw [exec_out, s.sequential_bind_ok _ _ 2 () (check_of _ _ hhook), s.sequential_ok _ 2 hpc]

end

/-! ### The statements -/

/-- Settles O56: the state that `exec_inp_of_inHook` names, field by field. -/
theorem inTakesTheHooksByte : Obligations.InTakesTheHooksByte :=
  ⟨fun _ => rfl, fun port s hpc hhook => ⟨_, exec_inp_of_inHook port s hpc hhook, rfl, rfl, rfl, rfl, rfl, rfl, rfl,
      rfl, rfl, rfl, toNat_ofNat_word _ hpc, rfl, ⟨rfl, rfl, rfl, rfl⟩, rfl⟩,
    fun port s => pastTop_of_sequential (exec_inp port s), exec_inp_of_no_inHook⟩

/-- Settles O57: the state that `exec_out_of_outHook` names, field by field. -/
theorem outGivesTheHookTheAccumulator : Obligations.OutGivesTheHookTheAccumulator :=
  ⟨fun _ => rfl, fun port s hpc hhook => ⟨_, exec_out_of_outHook port s hpc hhook, rfl, rfl, rfl, rfl, rfl, rfl, rfl,
      rfl, rfl, rfl, toNat_ofNat_word _ hpc, rfl, ⟨rfl, rfl, rfl, rfl⟩, rfl⟩,
    fun port s => pastTop_of_sequential (exec_out port s), exec_out_of_no_outHook⟩

/-- Settles O58: after the earlier stores, the last one is a write inside memory or nothing. -/
theorem hookStoresLandInOrder : Obligations.HookStoresLandInOrder := by
  intro m memLen earlier addr v hm
  have hlast : m.hookWrites memLen (earlier ++ [(addr, v)]) =
      if addr < memLen then (m.hookWrites memLen earlier).write addr v else m.hookWrites memLen earlier :=
    Memory.hookWrites_append memLen earlier [(addr, v)] m
  rw [hlast]
  refine ⟨fun h => ?_, fun other hne => ?_, fun h => if_neg (by omega)⟩
  · rw [if_pos h, Memory.read_write _ (Memory.hookWrites_wf memLen earlier m hm), if_pos rfl]
  · split
    · exact Memory.read_write_ne _ _ _ _ hne
    · rfl

end Sys2Proof.Machine
end

section
/-! SUPPORT. Construction and the state after reset (spec/70_reset_and_hazards.md R200, R201; 10_state.md R41): the bytes that a
load leaves, and the statements about them. -/

namespace Sys2Proof.Machine

section
variable (image : List Byte) (base : Nat)

theorem State.construct_of_not_fits (x : Launch) (h : ¬ (base + image.length ≤ Config.maxMemLen ∧ base < 2 ^ 16)) :
    State.construct image base x = none :=
  if_neg h

theorem Memory.wf_nil : Memory.wf [] := ⟨.nil, List.forall_mem_nil _⟩

theorem Memory.read_load_nil_of_lt (addr : Nat) (h : addr < base) :
    (Memory.load [] base image).read addr = Config.unlistedByte :=
  (Memory.read_load image [] base Memory.wf_nil addr).trans (if_pos h)

theorem Memory.read_load_nil_image (k : Nat) (v : Byte) (h : image[k]? = some v) :
    (Memory.load [] base image).read (base + k) = v := by
  rw [Memory.read_load image [] base Memory.wf_nil, if_neg (by omega), Nat.add_sub_cancel_left, h, Option.getD_some]

theorem Memory.load_nil_below : (Memory.load [] base image).below (base + image.length) :=
  Memory.load_below image [] base _ (List.forall_mem_nil _) (Nat.le_refl _)

end

/-- A zero byte is not listed. -/
theorem Memory.load_replicate_zero (n : Nat) : ∀ base, Memory.load [] base (List.replicate n 0) = [] := by
  induction n with
  | zero => exact fun _ => rfl
  | succ n ih => exact fun base => ih (base + 1)

/-- The raw construction of `n` zero bytes with the launch arguments that State.reset takes is State.reset, but for its
memory size. -/
theorem State.constructRaw_zeros (n : Nat) (h : n ≤ Config.maxMemLen) :
    State.constructRaw (List.replicate n 0) ⟨⟨0, 0, 0, 0, 0, 0, 0, 0⟩, .exact, true, true⟩ =
      some { State.reset with memLen := n } := by
  have hlen : 0 + (List.replicate n (0 : Byte)).length = n := by simp
  rw [State.constructRaw, State.construct, hlen, if_pos ⟨h, by decide⟩, Memory.load_replicate_zero]
  rfl

/-! ### The statements -/

/-- Settles O60: the constructed state field by field, its bytes by `Memory.read_load`. -/
theorem constructionLaysOutMemory : Obligations.ConstructionLaysOutMemory := by
  refine ⟨fun image base x hfit hbase => ?_, fun image base x h => ?_, fun x => ?_⟩
  · refine ⟨_, if_pos ⟨hfit, hbase⟩, toNat_ofNat_word base (by omega), rfl, rfl, rfl, rfl, fun addr h => ?_,
      fun k v h => ?_, rfl, rfl, rfl, rfl, rfl, rfl, rfl, rfl, rfl, rfl, rfl, ?_⟩
    · exact Memory.read_load_nil_of_lt image base addr h
    · exact Memory.read_load_nil_image image base k v h
    · exact ⟨Memory.load_wf image [] base Memory.wf_nil, Memory.load_nil_below image base, hfit, (fix_fix _).symm⟩
  · exact State.construct_of_not_fits image base x (fun ⟨hfit, _⟩ => Nat.not_le.2 h hfit)
  · exact State.construct_of_not_fits [] 65536 x (by decide)

/-- Settles O24: memory after reset lists no byte, and F is 02. -/
theorem resetMeetsInvariant : Obligations.ResetMeetsInvariant :=
  ⟨State.reset_mem_wf, List.forall_mem_nil _, Nat.le_refl _, rfl⟩

/-- Settles O25: the image is zeros, which memory does not list (`State.constructRaw_zeros`). -/
theorem resetIsARawConstruction : Obligations.ResetIsARawConstruction :=
  ⟨rfl, rfl, rfl, rfl, rfl, rfl, State.constructRaw_zeros 65536 (Nat.le_refl _)⟩

end Sys2Proof.Machine
end
